-- ==== Sys2Proof/Word.lean ====
section
/-! DEFINITION. The bit-vector types of the spec (00_scope.md R8, R10). -/

namespace Sys2Proof

/-- A register or command word, `REG_W` = 32 bits (00_scope.md R8). -/
abbrev Word := BitVec 32

/-- A byte of a buffer or of the wire (00_scope.md R9). -/
abbrev Byte := BitVec 8

/-- A 16-bit number: a duration of TIMING or a CRC value (10_state.md R20). -/
abbrev Half := BitVec 16

/-- A byte offset in the 4 KiB register window (20_memory.md R50). -/
abbrev Offset := BitVec 12

end Sys2Proof
end

