-- ==== Sys2Proof/Config.lean ====
section
/-! DEFINITION. The parameters of 00_scope.md R8, the literals of 93_implementation_defined.md section 2,
and the one parameter the spec leaves open (BASE). -/

namespace Sys2Proof.Config

/-- `BASE` divided by 4096: OPEN, "any address the platform gives, 4 KiB aligned" (00_scope.md R8).
No body, so nothing can be proved of its value. DESIGN CHOICE (log entry 4), safe. -/
opaque basePage : Nat

/-- `BASE`, the bus address of the register window: 4 KiB aligned (00_scope.md R8, 20_memory.md R50). -/
def base : Nat := 4096 * basePage

/-- The size of the register window in bytes (20_memory.md R50). -/
abbrev windowBytes : Nat := 4096

/-- `TX_CAP`: bytes of the transmit buffer (00_scope.md R8). -/
abbrev txCap : Nat := 8

/-- `RX_CAP`: bytes of the receive buffer (00_scope.md R8). -/
abbrev rxCap : Nat := 128

/-- `CRC_SCAN_MAX` = `RX_CAP` (00_scope.md R8). -/
abbrev crcScanMax : Nat := rxCap

/-- `BREAK_MIN_US`: the floor of the break duration (00_scope.md R8, 20_memory.md R60). -/
abbrev breakMinUs : Half := 12000

/-- `MARK_MIN_US`: the floor of the marking duration (00_scope.md R8, 20_memory.md R60). -/
abbrev markMinUs : Half := 8300

/-- `P_BTO_US`: the per-byte receive timeout of the reference instance (00_scope.md R8).
DESIGN CHOICE (log entry 3), unsafe for an instance with another value of the legal range. -/
abbrev pBtoUs : Word := 110000

/-- `P_TTO_US`: the overall transmit timeout of the reference instance (00_scope.md R8).
DESIGN CHOICE (log entry 3), unsafe for an instance with another value of the legal range. -/
abbrev pTtoUs : Word := 1000000

/-- CR (00_scope.md R9). -/
abbrev cr : Byte := 0x0D

/-- LF (00_scope.md R9). -/
abbrev lf : Byte := 0x0A

/-- The CRC polynomial, reflected (42_checksum.md R170). -/
abbrev crcPoly : Half := 0xA001

/-- The number of shift steps per byte (42_checksum.md R170 and R179). -/
abbrev crcSteps : Nat := 8

/-- The number of code characters of a checksum-extended response (42_checksum.md R172, R176). -/
abbrev codeChars : Nat := 3

/-- The identification constant (10_state.md R24). -/
abbrev idValue : Word := 0x53500001

end Sys2Proof.Config
end

