-- ==== Sys2Proof/Syntax.lean ====
section
/-! DEFINITION. The commands of the SPE: one constructor per row of spec/opcode_table.json. -/

namespace Sys2Proof

/-- The eight commands (30_encoding.md R83). An argument is the unsigned field of the command word as it
stands (R82); its legal range is `Instr.wf` (WellFormed.lean). -/
inductive Instr where
  /-- WAKE, OP 0x01 (40_wake_duplex.md R100). -/
  | wake
  /-- DIR.TX, OP 0x02 (40_wake_duplex.md R110). -/
  | dirTx
  /-- DIR.RX, OP 0x03 (40_wake_duplex.md R112). -/
  | dirRx
  /-- SEND n, OP 0x04 (41_transfer.md R130). -/
  | send (n : BitVec 4)
  /-- RECV l, OP 0x05 (41_transfer.md R140). -/
  | recv (l : BitVec 8)
  /-- CRC l, OP 0x06 (42_checksum.md R174). -/
  | crc (l : BitVec 8)
  /-- CHECK, OP 0x07 (42_checksum.md R176). -/
  | check
  /-- QUERY n, l, OP 0x08 (41_transfer.md R150). -/
  | query (n : BitVec 4) (l : BitVec 8)
deriving DecidableEq, Repr

end Sys2Proof
end

