-- ==== Sys2Proof/WellFormed.lean ====
section
/-! DEFINITION. The argument ranges of 30_encoding.md R83 and R84. A command outside them still decodes and
runs: it completes with BADARG. -/

namespace Sys2Proof

/-- N of SEND and QUERY: 1..8 (30_encoding.md R83). -/
def txCountOk (n : BitVec 4) : Bool := 1 ≤ n.toNat && n.toNat ≤ Config.txCap

/-- L of RECV and QUERY: 1..128 (30_encoding.md R83). -/
def maxLenOk (l : BitVec 8) : Bool := 1 ≤ l.toNat && l.toNat ≤ Config.rxCap

/-- L of CRC: 0..128 (30_encoding.md R83). -/
def scanLenOk (l : BitVec 8) : Bool := l.toNat ≤ Config.crcScanMax

/-- A command whose arguments lie in the ranges of 30_encoding.md R83. -/
def Instr.wf (i : Instr) : Bool :=
  match i with
  | .wake => true
  | .dirTx => true
  | .dirRx => true
  | .send n => txCountOk n
  | .recv l => maxLenOk l
  | .crc l => scanLenOk l
  | .check => true
  | .query n l => txCountOk n && maxLenOk l

end Sys2Proof
end

