-- ==== Sys2Proof/Decode.lean ====
section
/-! DEFINITION. The command word (30_encoding.md R80 to R88): its fields, the decoder, total on every word and
rejecting by name, and the encoder. -/

namespace Sys2Proof

/-- OP, bits [7:0] (30_encoding.md R81). -/
def opField (v : Word) : BitVec 8 := v.extractLsb' 0 8

/-- N, bits [11:8] (30_encoding.md R81). -/
def nField (v : Word) : BitVec 4 := v.extractLsb' 8 4

/-- RSV0, bits [15:12] (30_encoding.md R81). -/
def rsv0Field (v : Word) : BitVec 4 := v.extractLsb' 12 4

/-- L, bits [23:16] (30_encoding.md R81). -/
def lField (v : Word) : BitVec 8 := v.extractLsb' 16 8

/-- RSV1, bits [31:24] (30_encoding.md R81). -/
def rsv1Field (v : Word) : BitVec 8 := v.extractLsb' 24 8

/-- Why a word is an illegal encoding (30_encoding.md R87). Every reason gives the result ILLEGAL. -/
inductive IllegalReason where
  /-- RSV0 or RSV1 is nonzero. -/
  | reservedBits
  /-- OP is not in 0x01..0x08. -/
  | opcode
  /-- N is nonzero in a command whose N must be 0. -/
  | nNotZero
  /-- L is nonzero in a command whose L must be 0. -/
  | lNotZero
deriving DecidableEq, Repr

/-- What the decoder answers: a command, or the reason the word is illegal. -/
inductive Decoded where
  | command (i : Instr)
  | illegal (why : IllegalReason)
deriving DecidableEq, Repr

/-- The command of a decoder's answer. -/
def Decoded.command? : Decoded → Option Instr
  | .command i => some i
  | .illegal _ => none

/-- The "must be 0" checks of 30_encoding.md R85, N before L. -/
def requireZero (nMustBeZero lMustBeZero : Bool) (v : Word) (i : Instr) : Decoded :=
  if nMustBeZero && nField v != 0 then .illegal .nNotZero
  else if lMustBeZero && lField v != 0 then .illegal .lNotZero
  else .command i

/-- The encoding checks of 30_encoding.md R85 (its step 1), in its order. -/
def decode (v : Word) : Decoded :=
  if rsv0Field v != 0 || rsv1Field v != 0 then .illegal .reservedBits
  else
    match (opField v).toNat with
    | 0x01 => requireZero true true v .wake
    | 0x02 => requireZero true true v .dirTx
    | 0x03 => requireZero true true v .dirRx
    | 0x04 => requireZero false true v (.send (nField v))
    | 0x05 => requireZero true false v (.recv (lField v))
    | 0x06 => requireZero true false v (.crc (lField v))
    | 0x07 => requireZero true true v .check
    | 0x08 => requireZero false false v (.query (nField v) (lField v))
    | _ => .illegal .opcode

/-- The opcode of a command (30_encoding.md R83). -/
def Instr.opcode (i : Instr) : BitVec 8 :=
  match i with
  | .wake => 0x01
  | .dirTx => 0x02
  | .dirRx => 0x03
  | .send _ => 0x04
  | .recv _ => 0x05
  | .crc _ => 0x06
  | .check => 0x07
  | .query _ _ => 0x08

/-- N of a command's word (30_encoding.md R83): 0 where the command has none. -/
def Instr.nOperand (i : Instr) : BitVec 4 :=
  match i with
  | .wake => 0
  | .dirTx => 0
  | .dirRx => 0
  | .send n => n
  | .recv _ => 0
  | .crc _ => 0
  | .check => 0
  | .query n _ => n

/-- L of a command's word (30_encoding.md R83): 0 where the command has none. -/
def Instr.lOperand (i : Instr) : BitVec 8 :=
  match i with
  | .wake => 0
  | .dirTx => 0
  | .dirRx => 0
  | .send _ => 0
  | .recv l => l
  | .crc l => l
  | .check => 0
  | .query _ l => l

/-- `v = OP | (N << 8) | (L << 16)` (30_encoding.md R82). -/
def encode (i : Instr) : Word :=
  i.opcode.setWidth 32 ||| (i.nOperand.setWidth 32 <<< 8) ||| (i.lOperand.setWidth 32 <<< 16)

/-- A row of spec/opcode_table.json: a word `v` matches when `v & mask = match`. -/
structure OpcodeRow where
  mnemonic : String
  mask : Word
  pattern : Word
deriving DecidableEq, Repr

/-- spec/opcode_table.json, row by row. -/
def opcodeTable : List OpcodeRow :=
  [ ⟨"WAKE", 0xFFFFFFFF, 0x00000001⟩,
    ⟨"DIR.TX", 0xFFFFFFFF, 0x00000002⟩,
    ⟨"DIR.RX", 0xFFFFFFFF, 0x00000003⟩,
    ⟨"SEND", 0xFFFFF0FF, 0x00000004⟩,
    ⟨"RECV", 0xFF00FFFF, 0x00000005⟩,
    ⟨"CRC", 0xFF00FFFF, 0x00000006⟩,
    ⟨"CHECK", 0xFFFFFFFF, 0x00000007⟩,
    ⟨"QUERY", 0xFF00F0FF, 0x00000008⟩ ]

/-- Whether a word matches a row of the opcode table. -/
def OpcodeRow.accepts (r : OpcodeRow) (v : Word) : Bool := v &&& r.mask == r.pattern

/-- The mnemonic of a command, as the opcode table spells it. -/
def Instr.mnemonic (i : Instr) : String :=
  match i with
  | .wake => "WAKE"
  | .dirTx => "DIR.TX"
  | .dirRx => "DIR.RX"
  | .send _ => "SEND"
  | .recv _ => "RECV"
  | .crc _ => "CRC"
  | .check => "CHECK"
  | .query _ _ => "QUERY"

/-- The command word made of the low `nbits` bits of `w`. A command is one 32-bit word (30_encoding.md R80),
so a number that needs more than 32 bits is no command word. -/
def tableWord (nbits w : Nat) : Option Word :=
  let v := w % 2 ^ nbits
  if v < 2 ^ 32 then some (BitVec.ofNat 32 v) else none

/-- The command the decoder reads from a word numbered as spec/opcode_table.json numbers its bits. -/
def decodeTableWord (nbits w : Nat) : Option Instr :=
  match tableWord nbits w with
  | some v => (decode v).command?
  | none => none

end Sys2Proof
end

