-- ==== Sys2Proof/Machine/Memory.lean ====
section
/-! DEFINITION. The byte buffers of the SPE (10_state.md R20: `rxbuf`, `txbuf`) as lists of cells in one
canonical form: indexes strictly rising, no cell equal to what an unlisted index reads as (log entry 7). -/

namespace Sys2Proof.Machine

/-- A byte buffer: (index, byte) cells. -/
abbrev Memory := List Host.Cell

/-- What an unlisted byte reads as: the reset value 0x00 of every buffer byte (10_state.md R20). -/
def resetByte : Byte := 0x00

/-- The byte at index `a`. -/
def Memory.read (m : Memory) (a : Nat) : Byte :=
  match m with
  | [] => resetByte
  | (k, b) :: rest => if k = a then b else Memory.read rest a

/-- The cell list with nothing or one cell in front of `rest`: a byte equal to the unlisted value is not listed. -/
def Memory.consCell (a : Nat) (b : Byte) (rest : Memory) : Memory :=
  if b = resetByte then rest else (a, b) :: rest

/-- The buffer with byte `b` at index `a`, in canonical form. -/
def Memory.write (m : Memory) (a : Nat) (b : Byte) : Memory :=
  match m with
  | [] => Memory.consCell a b []
  | (k, c) :: rest =>
    if a < k then Memory.consCell a b ((k, c) :: rest)
    else if a = k then Memory.consCell a b rest
    else (k, c) :: Memory.write rest a b

/-- Every listed index is at least `lo` and below `size`, indexes rise strictly, and no cell holds the unlisted
value. -/
def Memory.wfFrom (lo size : Nat) (m : Memory) : Bool :=
  match m with
  | [] => true
  | (k, b) :: rest => lo ≤ k && k < size && b != resetByte && Memory.wfFrom (k + 1) size rest

/-- The canonical form of a buffer of `size` bytes. -/
def Memory.wf (size : Nat) (m : Memory) : Bool := Memory.wfFrom 0 size m

/-- The 32-bit word whose byte `i` (bits `8i+7..8i`) is the buffer's byte `a + i` (20_memory.md R66, R67, R68). -/
def Memory.readWord (m : Memory) (a : Nat) : Word :=
  m.read (a + 3) ++ m.read (a + 2) ++ m.read (a + 1) ++ m.read a

/-- The buffer with the four bytes of `v` at `a .. a + 3`, the low byte first (20_memory.md R66, R68). -/
def Memory.writeWord (m : Memory) (a : Nat) (v : Word) : Memory :=
  (((m.write a (v.extractLsb' 0 8)).write (a + 1) (v.extractLsb' 8 8)).write (a + 2)
    (v.extractLsb' 16 8)).write (a + 3) (v.extractLsb' 24 8)

end Sys2Proof.Machine
end

