-- ==== Sys2Proof/Machine/State.lean ====
section
/-! DEFINITION. The state record of 10_state.md R20, the inputs of the model's agents (00_scope.md R5), the
output trace (10_state.md R45), the ways a step can stop, and the state after reset (70_reset_and_hazards.md R230). -/

namespace Sys2Proof.Machine

/-- The duplex role of the line (10_state.md R20). -/
inductive Role where
  | receive
  | transmit
deriving DecidableEq, Repr

/-- Who drives the pin (10_state.md R20). -/
inductive PinMode where
  | periph
  | gpio
deriving DecidableEq, Repr

/-- The GPIO output level (10_state.md R20). -/
inductive Level where
  | low
  | high
deriving DecidableEq, Repr

/-- What the sequencer is doing (10_state.md R20, R22). -/
inductive Phase where
  | idle
  | brk
  | mark
  | send
  | recv
deriving DecidableEq, Repr

/-- The result codes of 60_exceptions.md R200. Codes 14 and 15 are never produced (log entry 12). -/
inductive ResultCode where
  | none
  | ok
  | eol
  | noDev
  | partialLine
  | full
  | txTimeout
  | transport
  | crcMismatch
  | malformed
  | illegal
  | badArg
  | role
  | txPend
deriving DecidableEq, Repr

/-- The sticky event flags of INTSTAT (20_memory.md R65). -/
inductive Flag where
  | done
  | err
  | ovr
  | drop
  | terr
deriving DecidableEq, Repr

/-- A host access of the slave port (20_memory.md R50 to R53). -/
inductive Access where
  /-- `RegRead(off)`. -/
  | read (off : Offset)
  /-- `RegWrite(off, v)`. -/
  | write (off : Offset) (v : Word)
deriving DecidableEq, Repr

/-- One input of one step: what an agent of 00_scope.md R5 does. -/
inductive Input where
  /-- The platform's reset (70_reset_and_hazards.md R230). -/
  | reset
  /-- A transport failure (10_state.md R43). -/
  | terr
  /-- A byte received from the line (10_state.md R41). -/
  | rxByte (b : Byte)
  /-- The byte of the last `TxByte` is fully shifted out (10_state.md R42). -/
  | txDone
  /-- One microsecond has passed (10_state.md R44). -/
  | tick
  /-- A register access of the host (20_memory.md R52, R53). -/
  | host (a : Access)
deriving DecidableEq, Repr

/-- The outputs that are functions of the state alone (10_state.md R40, 60_exceptions.md R206). -/
structure Lines where
  pinMode : PinMode
  gpioLevel : Level
  role : Role
  irq : Bool
deriving DecidableEq, Repr

/-- One entry of the output trace (10_state.md R45). -/
inductive Output where
  /-- `TxByte(b)`: a byte handed to the Line Transport (10_state.md R40). -/
  | txByte (b : Byte)
  /-- The value `RegRead` answered (20_memory.md R52). -/
  | readData (off : Offset) (v : Word)
  /-- A step took the input `i`, and after it the outputs are `l`. -/
  | after (i : Input) (l : Lines)
deriving DecidableEq, Repr

/-- The SPE. The fields up to `rop` are the record of 10_state.md R20, in its order. `inputs` and `trace` are the
model's own: the events still to come, oldest first (log entry 1), and the output trace, newest first (log entry 2). -/
structure State where
  role : Role
  pinmode : PinMode
  level : Level
  phase : Phase
  curop : BitVec 8
  cnt : Word
  txn : BitVec 4
  txidx : BitVec 4
  txpend : Bool
  rxmax : BitVec 8
  rxraw : BitVec 8
  rxlen : BitVec 8
  rxbuf : Memory
  txbuf : Memory
  breakUs : Half
  markUs : Half
  crcinit : Half
  crcval : Half
  inten : BitVec 5
  intstat : BitVec 5
  rcode : ResultCode
  rop : BitVec 8
  inputs : List Input
  trace : List Output
deriving DecidableEq, Repr

/-- The faults of the machine: none. Every event in every state has a defined effect and no access faults
(20_memory.md R51, 93_implementation_defined.md section 4), so no step answers with a fault. -/
inductive Fault
deriving DecidableEq, Repr

/-- The refusals of the machine. -/
inductive Refusal where
  /-- The host's name for an instruction that has no meaning yet. No arm of `exec` answers it: every command has
  its meaning. Safe. -/
  | notModelled (mnemonic : String)
deriving DecidableEq, Repr

/-- The state after reset: every field of 10_state.md R20 at the value 70_reset_and_hazards.md R230 gives it. -/
def State.reset : State :=
  { role := .receive
    pinmode := .periph
    level := .low
    phase := .idle
    curop := 0
    cnt := 0
    txn := 0
    txidx := 0
    txpend := false
    rxmax := 0
    rxraw := 0
    rxlen := 0
    rxbuf := []
    txbuf := []
    breakUs := 12000
    markUs := 9000
    crcinit := 0xFFFF
    crcval := 0xFFFF
    inten := 0
    intstat := 0
    rcode := .none
    rop := 0
    inputs := []
    trace := [] }

end Sys2Proof.Machine
end

