-- ==== Sys2Proof/Machine/Operands.lean ====
section
/-! DEFINITION. The operand checks of a command (30_encoding.md R84), the codes of the enumerated fields
(10_state.md R20, 60_exceptions.md R200) and the register named by an offset (20_memory.md R51, R54). -/

namespace Sys2Proof.Machine

/-- The argument range check of N for SEND and QUERY (30_encoding.md R85, step 2). -/
def nInRange (n : BitVec 4) : Bool := 1 ≤ n.toNat && n.toNat ≤ 8

/-- The argument range check of L for RECV and QUERY (30_encoding.md R85, step 2). -/
def lInRange (l : BitVec 8) : Bool := 1 ≤ l.toNat && l.toNat ≤ 128

/-- The argument range check of L for CRC (30_encoding.md R85, step 2). -/
def scanInRange (l : BitVec 8) : Bool := l.toNat ≤ 128

/-- 0 = Receive, 1 = Transmit (10_state.md R20). -/
def Role.code (r : Role) : BitVec 1 :=
  match r with
  | .receive => 0
  | .transmit => 1

/-- 0 = PERIPH, 1 = GPIO (10_state.md R20). -/
def PinMode.code (p : PinMode) : BitVec 1 :=
  match p with
  | .periph => 0
  | .gpio => 1

/-- 0 = low, 1 = high (10_state.md R20). -/
def Level.code (l : Level) : BitVec 1 :=
  match l with
  | .low => 0
  | .high => 1

/-- IDLE = 0, BREAK = 1, MARK = 2, SEND = 3, RECV = 4 (10_state.md R20). -/
def Phase.code (p : Phase) : BitVec 3 :=
  match p with
  | .idle => 0
  | .brk => 1
  | .mark => 2
  | .send => 3
  | .recv => 4

/-- RESULT.CODE (60_exceptions.md R200). -/
def ResultCode.code (c : ResultCode) : BitVec 4 :=
  match c with
  | .none => 0
  | .ok => 1
  | .eol => 2
  | .noDev => 3
  | .partialLine => 4
  | .full => 5
  | .txTimeout => 6
  | .transport => 7
  | .crcMismatch => 8
  | .malformed => 9
  | .illegal => 10
  | .badArg => 11
  | .role => 12
  | .txPend => 13

/-- The registers of the map of 20_memory.md R54. -/
inductive Reg where
  | id
  | status
  | cmd
  | result
  | rxlen
  | timing
  | crcinit
  | crcval
  | crcin
  | inten
  | intstat
  | txd0
  | txd1
  /-- RXBUF0..RXBUF31. -/
  | rxbuf (k : Fin 32)
  /-- A word offset with no register. -/
  | reserved
deriving DecidableEq, Repr

/-- `woff = off & 0xFFC` (20_memory.md R51). -/
def wordOffset (off : Offset) : Nat := (off &&& 0xFFC).toNat

/-- The register at the word offset of `off` (20_memory.md R51, R54). -/
def Reg.ofOffset (off : Offset) : Reg :=
  match wordOffset off with
  | 0x000 => .id
  | 0x004 => .status
  | 0x008 => .cmd
  | 0x00C => .result
  | 0x010 => .rxlen
  | 0x014 => .timing
  | 0x018 => .crcinit
  | 0x01C => .crcval
  | 0x020 => .crcin
  | 0x024 => .inten
  | 0x028 => .intstat
  | 0x030 => .txd0
  | 0x034 => .txd1
  | woff =>
    if 0x100 ≤ woff && woff ≤ 0x17C then .rxbuf (Fin.ofNat 32 ((woff - 0x100) / 4)) else .reserved

/-- Whether a write to the register changes nothing (20_memory.md R53: a read-only register or a reserved offset). -/
def Reg.ignoresWrites (r : Reg) : Bool :=
  match r with
  | .id => true
  | .status => true
  | .cmd => false
  | .result => true
  | .rxlen => true
  | .timing => false
  | .crcinit => false
  | .crcval => false
  | .crcin => false
  | .inten => false
  | .intstat => false
  | .txd0 => false
  | .txd1 => false
  | .rxbuf _ => true
  | .reserved => true

/-- Whether a write to the register is ignored while busy and sets OVR (20_memory.md R57). -/
def Reg.lockedWhileBusy (r : Reg) : Bool :=
  match r with
  | .id => false
  | .status => false
  | .cmd => true
  | .result => false
  | .rxlen => false
  | .timing => true
  | .crcinit => true
  | .crcval => true
  | .crcin => true
  | .inten => false
  | .intstat => false
  | .txd0 => true
  | .txd1 => true
  | .rxbuf _ => false
  | .reserved => false

end Sys2Proof.Machine
end

