-- ==== Sys2Proof/Machine/Flags.lean ====
section
/-! DEFINITION. The event flags of INTSTAT, the interrupt output, and the classes of result codes
(20_memory.md R65, 60_exceptions.md R200, R201, R205, R206). -/

namespace Sys2Proof.Machine

/-- The bit of a flag in INTSTAT and INTEN (20_memory.md R65, 60_exceptions.md R205). -/
def Flag.bit (f : Flag) : Nat :=
  match f with
  | .done => 0
  | .err => 1
  | .ovr => 2
  | .drop => 3
  | .terr => 4

/-- A word of flags with one flag set. -/
def Flag.mask (f : Flag) : BitVec 5 := 1 <<< f.bit

/-- Sets a sticky flag (20_memory.md R65). -/
def State.setFlag (f : Flag) (s : State) : State := { s with intstat := s.intstat ||| f.mask }

/-- Whether a code's class is "error" (60_exceptions.md R200). -/
def ResultCode.isError (c : ResultCode) : Bool :=
  match c with
  | .none => false
  | .ok => false
  | .eol => false
  | .noDev => true
  | .partialLine => true
  | .full => false
  | .txTimeout => true
  | .transport => true
  | .crcMismatch => true
  | .malformed => true
  | .illegal => true
  | .badArg => true
  | .role => true
  | .txPend => true

/-- The flags a completion with code `c` sets (60_exceptions.md R203). -/
def completionFlags (c : ResultCode) : BitVec 5 :=
  if c.isError then Flag.done.mask ||| Flag.err.mask else Flag.done.mask

/-- `irq`: the OR of the enabled pending flags (60_exceptions.md R206). -/
def State.irq (s : State) : Bool := s.intstat &&& s.inten != 0

/-- *Busy*: `phase != IDLE` (10_state.md R23). -/
def State.busy (s : State) : Bool := s.phase != .idle

/-- The source's error kinds that a result code of the block stands for (60_exceptions.md R201). -/
inductive ErrorKind where
  | transportError
  | timeout
  | malformedFrame
  | checksumMismatch
deriving DecidableEq, Repr

/-- The mapping of 60_exceptions.md R201. The interface codes have no counterpart in the source. -/
def ResultCode.errorKind (c : ResultCode) : Option ErrorKind :=
  match c with
  | .none => Option.none
  | .ok => Option.none
  | .eol => Option.none
  | .noDev => some .timeout
  | .partialLine => some .malformedFrame
  | .full => Option.none
  | .txTimeout => some .timeout
  | .transport => some .transportError
  | .crcMismatch => some .checksumMismatch
  | .malformed => some .malformedFrame
  | .illegal => Option.none
  | .badArg => Option.none
  | .role => Option.none
  | .txPend => Option.none

end Sys2Proof.Machine
end

