-- ==== Sys2Proof/Machine/Ops.lean ====
section
/-! DEFINITION. The shared operations of the rules: completion (the spec's analogue of taking an exception), the
wake sequence, transmission and reception (40_wake_duplex.md, 41_transfer.md, 60_exceptions.md). -/

namespace Sys2Proof.Machine

/-- The outputs of the SPE to the Line Transport and the platform (10_state.md R40). -/
def State.lines (s : State) : Lines :=
  { pinMode := s.pinmode, gpioLevel := s.level, role := s.role, irq := s.irq }

/-- The trace entry of a step that took input `i`: the outputs after it (10_state.md R45). -/
def State.record (i : Input) (s : State) : State := { s with trace := .after i s.lines :: s.trace }

/-- `emit TxByte(b)` (00_scope.md R11, 10_state.md R40). -/
def State.emit (b : Byte) (s : State) : State := { s with trace := .txByte b :: s.trace }

/-- The answer to `RegRead(off)` (20_memory.md R52). -/
def State.answer (off : Offset) (v : Word) (s : State) : State :=
  { s with trace := .readData off v :: s.trace }

/-- The bytes of a trace's `TxByte` events, oldest first (10_state.md R45). -/
def txBytesOf (t : List Output) : List Byte :=
  match t with
  | [] => []
  | .txByte b :: rest => txBytesOf rest ++ [b]
  | .readData _ _ :: rest => txBytesOf rest
  | .after _ _ :: rest => txBytesOf rest

/-- The number of `tick` steps of a trace (10_state.md R45, 00_scope.md R7). -/
def ticksOf (t : List Output) : Nat :=
  match t with
  | [] => 0
  | .after .tick _ :: rest => ticksOf rest + 1
  | _ :: rest => ticksOf rest

/-- The first two writes of `issue` (30_encoding.md R85): the opcode is recorded, no result yet. -/
def State.issued (op : BitVec 8) (s : State) : State := { s with rop := op, rcode := .none }

/-- `complete(code)` (60_exceptions.md R203): ends the command in progress, or the one being issued. -/
def State.complete (c : ResultCode) (s : State) : State :=
  { s with
    rcode := c
    phase := .idle
    curop := 0
    cnt := 0
    intstat := s.intstat ||| completionFlags c }

/-- `start_break()` (40_wake_duplex.md R101). -/
def State.startBreak (s : State) : State :=
  { s with pinmode := .gpio, level := .high, phase := .brk, cnt := s.breakUs.setWidth 32 }

/-- End of break (40_wake_duplex.md R102). -/
def State.endBreak (s : State) : State :=
  { s with level := .low, pinmode := .periph, phase := .mark, cnt := s.markUs.setWidth 32 }

/-- `start_send(n)` (41_transfer.md R131). -/
def State.startSend (n : BitVec 4) (s : State) : State :=
  { s.emit (s.txbuf.read 0) with
    phase := .send
    cnt := Config.pTtoUs
    txn := n
    txpend := true
    txidx := 1 }

/-- The next byte of a running transmission (41_transfer.md R133, the branch `txidx < txn`). -/
def State.sendNext (s : State) : State :=
  { s.emit (s.txbuf.read s.txidx.toNat) with
    txpend := true
    txidx := s.txidx + 1 }

/-- `start_recv(l)` (41_transfer.md R142). The buffer bytes are not cleared. -/
def State.startRecv (l : BitVec 8) (s : State) : State :=
  { s with phase := .recv, rxmax := l, rxraw := 0, rxlen := 0, cnt := Config.pBtoUs }

/-- `query_after_mark()` (41_transfer.md R151). -/
def State.queryAfterMark (s : State) : State := State.startSend s.txn { s with role := .transmit }

/-- `turnaround()` (41_transfer.md R152). -/
def State.turnaround (s : State) : State := State.startRecv s.rxmax { s with role := .receive }

/-- End of marking (40_wake_duplex.md R103). No other `curop` can be in phase MARK. -/
def State.endMark (s : State) : State :=
  if s.curop = 0x01 then s.complete .ok
  else if s.curop = 0x08 then s.queryAfterMark
  else s

/-- The end of a transmission whose last byte is flushed (41_transfer.md R133). -/
def State.endSend (s : State) : State :=
  if s.curop = 0x04 then s.complete .ok
  else if s.curop = 0x08 then s.turnaround
  else s

/-- Whether a byte is stripped from the end of a response (41_transfer.md R141). -/
def isLineEnd (b : Byte) : Bool := b == Config.cr || b == Config.lf

/-- `strip(n)` (41_transfer.md R141): the length left of the first `n` bytes of the buffer. -/
def strip (m : Memory) (n : Nat) : Nat :=
  match n with
  | 0 => 0
  | k + 1 => if isLineEnd (m.read k) then strip m k else k + 1

/-- `S.rxlen <- strip(S.rxraw)`. -/
def State.stripLine (s : State) : State :=
  { s with rxlen := BitVec.ofNat 8 (strip s.rxbuf s.rxraw.toNat) }

/-- `rxbuf[S.rxraw] <- b; S.rxraw <- S.rxraw + 1; S.cnt <- P_BTO_US` (41_transfer.md R143). The buffer has 128
bytes: at an index beyond them, which no run reaches (10_state.md R26(e)), nothing is stored. DESIGN CHOICE
(log entry 8), safe. -/
def State.storeByte (b : Byte) (s : State) : State :=
  { s with
    rxbuf := if s.rxraw.toNat < Config.rxCap then s.rxbuf.write s.rxraw.toNat b else s.rxbuf
    rxraw := s.rxraw + 1
    cnt := Config.pBtoUs }

/-- `S.cnt <- S.cnt - 1`. -/
def State.countDown (s : State) : State := { s with cnt := s.cnt - 1 }

/-- The pin released to the serial peripheral at low level, and no byte in flight (60_exceptions.md R210). -/
def State.releaseLine (s : State) : State :=
  { s with level := .low, pinmode := .periph, txpend := false }

end Sys2Proof.Machine
end

