-- ==== Sys2Proof/Machine/Checksum.lean ====
section
/-! DEFINITION. The CRC arithmetic (42_checksum.md R170 to R173), CRC and CHECK (R174, R176). -/

namespace Sys2Proof.Machine

/-- One shift-right-and-conditional-XOR step (42_checksum.md R170). -/
def crcShift (c : Half) : Half := if c.getLsbD 0 then (c >>> 1) ^^^ Config.crcPoly else c >>> 1

/-- `k` steps. -/
def crcShifts (k : Nat) (c : Half) : Half :=
  match k with
  | 0 => c
  | k + 1 => crcShifts k (crcShift c)

/-- `crc_byte(c, b)` (42_checksum.md R170): exactly 8 steps (R179). -/
def crcByte (c : Half) (b : Byte) : Half := crcShifts Config.crcSteps (c ^^^ b.setWidth 16)

/-- The loop of `crc_scan` with `k` indexes still to look at, the next being `j`. -/
def crcScanFrom (m : Memory) (j k : Nat) (c : Half) : Half :=
  match k with
  | 0 => c
  | k + 1 => if m.read j = Config.cr then c else crcScanFrom m (j + 1) k (crcByte c (m.read j))

/-- `crc_scan(c, lim)` over the buffer `m` (42_checksum.md R171). -/
def crcScan (m : Memory) (c : Half) (lim : Nat) : Half := crcScanFrom m 0 lim c

/-- The fold of `crc_byte` over a byte string (42_checksum.md R178). -/
def crcFold (c : Half) (bs : List Byte) : Half := bs.foldl crcByte c

/-- `enc3(c)` (42_checksum.md R172): first, second and third code character. -/
def enc3 (c : Half) : Byte × Byte × Byte :=
  (0x40 ||| (c.extractLsb' 12 4).setWidth 8,
   0x40 ||| (c.extractLsb' 6 6).setWidth 8,
   0x40 ||| (c.extractLsb' 0 6).setWidth 8)

/-- The three code characters at `body .. body + 2` of the receive buffer (42_checksum.md R176). -/
def codeAt (m : Memory) (body : Nat) : Byte × Byte × Byte :=
  (m.read body, m.read (body + 1), m.read (body + 2))

/-- CRC l (42_checksum.md R174). -/
def execCrc (l : BitVec 8) (s : State) : Host.Outcome State Fault Refusal :=
  let s := s.issued 0x06
  .next
    (if !scanInRange l then s.complete .badArg
     else State.complete .ok { s with crcval := crcScan s.rxbuf s.crcinit l.toNat })

/-- CHECK (42_checksum.md R176). -/
def execCheck (s : State) : Host.Outcome State Fault Refusal :=
  let s := s.issued 0x07
  .next
    (if s.rxlen.toNat < Config.codeChars then s.complete .malformed
     else
       let body := s.rxlen.toNat - Config.codeChars
       let c := crcScan s.rxbuf s.crcinit body
       let s := { s with crcval := c }
       if codeAt s.rxbuf body = enc3 c then s.complete .ok else s.complete .crcMismatch)

end Sys2Proof.Machine
end

