-- ==== Sys2Proof/Machine/Transfer.lean ====
section
/-! DEFINITION. SEND, RECV and QUERY (41_transfer.md), with the issue checks of 30_encoding.md R85 that name
them, in its order: argument range, role, byte in flight. -/

namespace Sys2Proof.Machine

/-- SEND n (41_transfer.md R130). -/
def execSend (n : BitVec 4) (s : State) : Host.Outcome State Fault Refusal :=
  let s := s.issued 0x04
  .next
    (if !nInRange n then s.complete .badArg
     else if s.role != .transmit then s.complete .role
     else if s.txpend then s.complete .txPend
     else State.startSend n { s with curop := 0x04 })

/-- RECV l (41_transfer.md R140). -/
def execRecv (l : BitVec 8) (s : State) : Host.Outcome State Fault Refusal :=
  let s := s.issued 0x05
  .next
    (if !lInRange l then s.complete .badArg
     else if s.role != .receive then s.complete .role
     else State.startRecv l { s with curop := 0x05 })

/-- QUERY n, l (41_transfer.md R150). It is never refused with ROLE. No byte of this command is handed over yet, so
`txidx`, the index of the next byte to hand over (10_state.md R20), is 0: so `txidx <= txn` holds with the new `txn`
(10_state.md R26(d)), which R150's own writes leave open. DEDUCED (log entry 5). -/
def execQuery (n : BitVec 4) (l : BitVec 8) (s : State) : Host.Outcome State Fault Refusal :=
  let s := s.issued 0x08
  .next
    (if !(nInRange n) then s.complete .badArg
     else if !(lInRange l) then s.complete .badArg
     else if s.txpend then s.complete .txPend
     else State.startBreak { s with curop := 0x08, txn := n, txidx := 0, rxmax := l })

end Sys2Proof.Machine
end

