-- ==== Sys2Proof/Machine/WakeDuplex.lean ====
section
/-! DEFINITION. WAKE, DIR.TX and DIR.RX (40_wake_duplex.md), with the issue checks of 30_encoding.md R85 that
name them (steps 3 to 5; the encoding checks are the decoder's). -/

namespace Sys2Proof.Machine

/-- WAKE (40_wake_duplex.md R100): refused with TXPEND while a byte is in flight, otherwise starts the break. -/
def execWake (s : State) : Host.Outcome State Fault Refusal :=
  let s := s.issued 0x01
  .next (if s.txpend then s.complete .txPend else State.startBreak { s with curop := 0x01 })

/-- DIR.TX (40_wake_duplex.md R110). It has no TXPEND check. -/
def execDirTx (s : State) : Host.Outcome State Fault Refusal :=
  let s := s.issued 0x02
  .next (State.complete .ok { s with role := .transmit })

/-- DIR.RX (40_wake_duplex.md R112): refused with TXPEND while a byte is in flight. -/
def execDirRx (s : State) : Host.Outcome State Fault Refusal :=
  let s := s.issued 0x03
  .next (if s.txpend then s.complete .txPend else State.complete .ok { s with role := .receive })

end Sys2Proof.Machine
end

