-- ==== Sys2Proof/Machine/Dispatch.lean ====
section
/-! DEFINITION. One arm per command, each one direct call of its meaning. -/

namespace Sys2Proof.Machine

/-- The effect of a command that passes the encoding checks, issued in the state `s` (30_encoding.md R85). -/
def exec (i : Instr) (s : State) : Host.Outcome State Fault Refusal :=
  match i with
  | .wake => Sys2Proof.Machine.execWake s
  | .dirTx => Sys2Proof.Machine.execDirTx s
  | .dirRx => Sys2Proof.Machine.execDirRx s
  | .send n => Sys2Proof.Machine.execSend n s
  | .recv l => Sys2Proof.Machine.execRecv l s
  | .crc l => Sys2Proof.Machine.execCrc l s
  | .check => Sys2Proof.Machine.execCheck s
  | .query n l => Sys2Proof.Machine.execQuery n l s

end Sys2Proof.Machine
end

