-- ==== Sys2Proof/Machine/Registers.lean ====
section
/-! DEFINITION. The register window (20_memory.md R50 to R67): the value each register reads as, the write rule of
each, and the issue of a command word (30_encoding.md R85). -/

namespace Sys2Proof.Machine

/-- `issue(v)` (30_encoding.md R85): an illegal word completes with ILLEGAL, any other runs as its command. -/
def issue (v : Word) (s : State) : Host.Outcome State Fault Refusal :=
  match decode v with
  | .illegal _ => .next ((s.issued (opField v)).complete .illegal)
  | .command i => exec i s

/-- STATUS (20_memory.md R55). -/
def State.statusWord (s : State) : Word :=
  (0 : BitVec 8) ++ s.curop ++ (0 : BitVec 5) ++ s.phase.code ++ (0 : BitVec 3) ++ BitVec.ofBool s.txpend
    ++ s.level.code ++ s.pinmode.code ++ s.role.code ++ BitVec.ofBool s.busy

/-- RESULT (20_memory.md R58). -/
def State.resultWord (s : State) : Word :=
  (0 : BitVec 16) ++ s.rop ++ (0 : BitVec 4) ++ s.rcode.code

/-- RXLEN (20_memory.md R59). -/
def State.rxlenWord (s : State) : Word := (0 : BitVec 8) ++ s.rxmax ++ s.rxraw ++ s.rxlen

/-- TIMING (20_memory.md R60). -/
def State.timingWord (s : State) : Word := s.markUs ++ s.breakUs

/-- The value a register reads as (20_memory.md R52, R54 to R67). -/
def State.readReg (r : Reg) (s : State) : Word :=
  match r with
  | .id => Config.idValue
  | .status => s.statusWord
  | .cmd => 0
  | .result => s.resultWord
  | .rxlen => s.rxlenWord
  | .timing => s.timingWord
  | .crcinit => s.crcinit.setWidth 32
  | .crcval => s.crcval.setWidth 32
  | .crcin => 0
  | .inten => s.inten.setWidth 32
  | .intstat => s.intstat.setWidth 32
  | .txd0 => s.txbuf.readWord 0
  | .txd1 => s.txbuf.readWord 4
  | .rxbuf k => s.rxbuf.readWord (4 * k.val)
  | .reserved => 0

/-- The value of `RegRead(off)` (20_memory.md R51, R52). -/
def State.regValue (off : Offset) (s : State) : Word := s.readReg (Reg.ofOffset off)

/-- `RegRead(off)` (20_memory.md R52): the value is answered and no field changes. -/
def regRead (off : Offset) (s : State) : Host.Outcome State Fault Refusal :=
  .next (s.answer off (s.regValue off))

/-- A duration not below its floor (20_memory.md R60). -/
def atLeast (floor v : Half) : Half := if v.toNat < floor.toNat then floor else v

/-- A TIMING write when idle (20_memory.md R60). -/
def writeTiming (v : Word) (s : State) : State :=
  { s with
    breakUs := atLeast Config.breakMinUs (v.extractLsb' 0 16)
    markUs := atLeast Config.markMinUs (v.extractLsb' 16 16) }

/-- A CRCINIT write when idle (20_memory.md R61). -/
def writeCrcinit (v : Word) (s : State) : State := { s with crcinit := v.extractLsb' 0 16 }

/-- A CRCVAL write when idle (20_memory.md R62). -/
def writeCrcval (v : Word) (s : State) : State := { s with crcval := v.extractLsb' 0 16 }

/-- A CRCIN write when idle (20_memory.md R63): one byte step of the streaming port. -/
def writeCrcin (v : Word) (s : State) : State := { s with crcval := crcByte s.crcval (v.extractLsb' 0 8) }

/-- An INTEN write (20_memory.md R64). -/
def writeInten (v : Word) (s : State) : State := { s with inten := v.extractLsb' 0 5 }

/-- An INTSTAT write (20_memory.md R65): write-1-to-clear. It is the "return" of 60_exceptions.md R207. -/
def writeIntstat (v : Word) (s : State) : State := { s with intstat := s.intstat &&& ~~~(v.extractLsb' 0 5) }

/-- A TXD0 (`a = 0`) or TXD1 (`a = 4`) write when idle (20_memory.md R66). -/
def writeTxd (a : Nat) (v : Word) (s : State) : State := { s with txbuf := s.txbuf.writeWord a v }

/-- A write that is ignored while busy and then sets OVR (20_memory.md R57). -/
def whenIdle (f : State → State) (s : State) : State := if s.busy then s.setFlag .ovr else f s

/-- A CMD write (20_memory.md R56): accepted only while idle. -/
def writeCmd (v : Word) (s : State) : Host.Outcome State Fault Refusal :=
  if s.busy then .next (s.setFlag .ovr) else issue v s

/-- The write rule of a register (20_memory.md R53, R54). -/
def writeReg (r : Reg) (v : Word) (s : State) : Host.Outcome State Fault Refusal :=
  match r with
  | .id => .next s
  | .status => .next s
  | .cmd => writeCmd v s
  | .result => .next s
  | .rxlen => .next s
  | .timing => .next (whenIdle (writeTiming v) s)
  | .crcinit => .next (whenIdle (writeCrcinit v) s)
  | .crcval => .next (whenIdle (writeCrcval v) s)
  | .crcin => .next (whenIdle (writeCrcin v) s)
  | .inten => .next (writeInten v s)
  | .intstat => .next (writeIntstat v s)
  | .txd0 => .next (whenIdle (writeTxd 0 v) s)
  | .txd1 => .next (whenIdle (writeTxd 4 v) s)
  | .rxbuf _ => .next s
  | .reserved => .next s

/-- `RegWrite(off, v)` (20_memory.md R51, R53). -/
def regWrite (off : Offset) (v : Word) (s : State) : Host.Outcome State Fault Refusal :=
  writeReg (Reg.ofOffset off) v s

/-- The offset in the SPE's window of a bus address, or none where the address does not select the SPE
(20_memory.md R50; BASE is open, log entry 4). -/
def windowOffset (addr : Nat) : Option Offset :=
  if Config.base ≤ addr && addr < Config.base + Config.windowBytes then
    some (BitVec.ofNat 12 (addr - Config.base))
  else none

end Sys2Proof.Machine
end

