-- ==== Sys2Proof/Machine/Events.lean ====
section
/-! DEFINITION. What each input does: ticks, line events, transport errors, reset and host accesses. -/

namespace Sys2Proof.Machine

/-- A tick in BREAK (40_wake_duplex.md R104). -/
def tickBreak (s : State) : State :=
  let s := s.countDown
  if s.cnt = 0 then s.endBreak else s

/-- A tick in MARK (40_wake_duplex.md R104). -/
def tickMark (s : State) : State :=
  let s := s.countDown
  if s.cnt = 0 then s.endMark else s

/-- A tick in SEND (41_transfer.md R135): `txpend` is left as it is. -/
def tickSend (s : State) : State :=
  let s := s.countDown
  if s.cnt = 0 then s.complete .txTimeout else s

/-- A tick in RECV (41_transfer.md R144). -/
def tickRecv (s : State) : State :=
  let s := s.countDown
  if s.cnt = 0 then
    let s := s.stripLine
    if s.rxlen = 0 then s.complete .noDev else s.complete .partialLine
  else s

/-- `tick` (10_state.md R44). -/
def onTick (s : State) : State :=
  match s.phase with
  | .idle => s
  | .brk => tickBreak s
  | .mark => tickMark s
  | .send => tickSend s
  | .recv => tickRecv s

/-- `tx_done` (41_transfer.md R133 while SEND with a byte in flight, R134 in any other case). -/
def onTxDone (s : State) : State :=
  if s.txpend then
    let s := { s with txpend := false }
    if s.phase = .send then
      if s.txidx.toNat < s.txn.toNat then s.sendNext else s.endSend
    else s
  else s

/-- A byte taken by an armed receive (41_transfer.md R143). The LF test comes first. -/
def takeByte (b : Byte) (s : State) : State :=
  let s := s.storeByte b
  if b = Config.lf then s.stripLine.complete .eol
  else if s.rxraw = s.rxmax then s.stripLine.complete .full
  else s

/-- `rx_byte(b)` (41_transfer.md R143 in RECV, R145 in any other phase). -/
def onRxByte (b : Byte) (s : State) : State :=
  if s.phase = .recv then takeByte b s else s.setFlag .drop

/-- `terr` (60_exceptions.md R210 while busy, R211 while idle). -/
def onTerr (s : State) : State :=
  if s.busy then
    let s := if s.phase = .recv then s.stripLine else s
    s.releaseLine.complete .transport
  else { s.setFlag .terr with txpend := false }

/-- `reset` (70_reset_and_hazards.md R230). The trace stays (R231), and so do the inputs still to come
(log entry 16). -/
def onReset (s : State) : State := { State.reset with inputs := s.inputs, trace := s.trace }

/-- A host access (20_memory.md R50 to R53). -/
def onHost (a : Access) (s : State) : Host.Outcome State Fault Refusal :=
  match a with
  | .read off => regRead off s
  | .write off v => regWrite off v s

/-- The effect of one input (00_scope.md R5, R6). -/
def handle (i : Input) (s : State) : Host.Outcome State Fault Refusal :=
  match i with
  | .reset => .next (onReset s)
  | .terr => .next (onTerr s)
  | .rxByte b => .next (onRxByte b s)
  | .txDone => .next (onTxDone s)
  | .tick => .next (onTick s)
  | .host a => onHost a s

/-- The trace entry is added to a next state (10_state.md R45). -/
def recordOutcome (i : Input) (o : Host.Outcome State Fault Refusal) : Host.Outcome State Fault Refusal :=
  match o with
  | .next s => .next (s.record i)
  | .fault f => .fault f
  | .refused r => .refused r

/-- One step on the next pending input, which is taken off the list. With no input pending nothing happens: the SPE
runs nothing on its own and time does not pass (70_reset_and_hazards.md R232, R246; log entry 1). -/
def takeInput (s : State) : Host.Outcome State Fault Refusal :=
  match s.inputs with
  | [] => .next s
  | i :: rest => recordOutcome i (handle i { s with inputs := rest })

/-- The offset of CMD (20_memory.md R54). -/
def cmdOffset : Offset := 0x008

/-- The pending CMD write that issues the word `v`, put before every other input, with the SPE idle: a command is
accepted only while idle (20_memory.md R56; log entry 11). -/
def State.withCmdWrite (s : State) (v : Word) : State :=
  { s with phase := .idle, inputs := .host (.write cmdOffset v) :: s.inputs }

end Sys2Proof.Machine
end

