-- ==== Sys2Proof/Machine/Step.lean ====
section
/-! DEFINITION. One step of the SPE, and the placing of a command where the next step takes it. -/

namespace Sys2Proof.Machine

/-- One atomic step (00_scope.md R6): the next pending input is handled. -/
def step (s : State) : Host.Outcome State Fault Refusal := takeInput s

/-- `s` with the command word of the low `nbits` bits of `w` as the next input, a CMD write while idle. A number
that needs more than 32 bits is no command word (30_encoding.md R80) and places nothing. -/
def State.withFetchWord (s : State) (nbits w : Nat) : State :=
  match tableWord nbits w with
  | some v => s.withCmdWrite v
  | none => s

end Sys2Proof.Machine
end

