-- ==== Sys2Proof/Machine/HostSide.lean ====
section
/-! DEFINITION. What stands on the host's and the environment's side of the interface: inputs of one clock cycle
(60_exceptions.md R214), bus accesses (20_memory.md R50), the assembler and the pseudo-instructions
(30_encoding.md R89, R90). -/

namespace Sys2Proof.Machine

/-- The inputs the hardware may see in one clock cycle: at most one of each kind (60_exceptions.md R214). -/
structure Cycle where
  reset : Bool
  terr : Bool
  rxByte : Option Byte
  txDone : Bool
  tick : Bool
  host : Option Access
deriving DecidableEq, Repr

/-- The inputs of one cycle but the host's access, in the order of 60_exceptions.md R214. -/
def cycleEvents (c : Cycle) : List Input :=
  (if c.reset then [Input.reset] else []) ++ (if c.terr then [Input.terr] else [])
    ++ (c.rxByte.map Input.rxByte).toList ++ (if c.txDone then [Input.txDone] else [])
    ++ (if c.tick then [Input.tick] else [])

/-- The state after the inputs `es` are handled. -/
def afterInputs (es : List Input) (s : State) : State :=
  match es with
  | [] => s
  | i :: rest =>
    match handle i s with
    | .next t => afterInputs rest t
    | .fault _ => s
    | .refused _ => s

/-- The flags that the inputs `es` set: those pending after them when none was pending before. -/
def flagsSetBy (es : List Input) (s : State) : BitVec 5 := (afterInputs es { s with intstat := 0 }).intstat

/-- The host's access of a cycle whose events set the flags `fresh`: a write-1-to-clear of INTSTAT clears none of
them (60_exceptions.md R207, "stays set"; 92_eei_decisions.md D26, "A same-cycle set wins over a clear"; log
entry 17). -/
def keepFresh (fresh : BitVec 5) (a : Access) : Access :=
  match a with
  | .read off => .read off
  | .write off v => .write off (if Reg.ofOffset off = .intstat then v &&& ~~~(fresh.setWidth 32) else v)

/-- The inputs of one cycle that begins in the state `s`, as successive steps in the order of 60_exceptions.md
R214. -/
def cycleInputs (c : Cycle) (s : State) : List Input :=
  cycleEvents c ++ (c.host.map fun a => Input.host (keepFresh (flagsSetBy (cycleEvents c) s) a)).toList

/-- The input of a bus read, if the address selects the SPE (20_memory.md R50). -/
def busRead (addr : Nat) : List Input :=
  ((windowOffset addr).map fun off => Input.host (.read off)).toList

/-- The input of a bus write, if the address selects the SPE (20_memory.md R50). -/
def busWrite (addr : Nat) (v : Word) : List Input :=
  ((windowOffset addr).map fun off => Input.host (.write off v)).toList

/-- The assembler of 30_encoding.md R89 on a mnemonic and its operands: a word where the operands are in range. -/
def assemble (mnemonic : String) (operands : List Nat) : Option Word :=
  match mnemonic, operands with
  | "WAKE", [] => some 0x00000001
  | "DIR.TX", [] => some 0x00000002
  | "DIR.RX", [] => some 0x00000003
  | "SEND", [n] => if 1 ≤ n && n ≤ 8 then some (0x00000004 ||| BitVec.ofNat 32 n <<< 8) else none
  | "RECV", [l] => if 1 ≤ l && l ≤ 128 then some (0x00000005 ||| BitVec.ofNat 32 l <<< 16) else none
  | "CRC", [l] => if l ≤ 128 then some (0x00000006 ||| BitVec.ofNat 32 l <<< 16) else none
  | "CHECK", [] => some 0x00000007
  | "QUERY", [n, l] =>
    if 1 ≤ n && n ≤ 8 && 1 ≤ l && l ≤ 128 then
      some (0x00000008 ||| BitVec.ofNat 32 n <<< 8 ||| BitVec.ofNat 32 l <<< 16)
    else none
  | _, _ => none

/-- A host write of the register at `off`. -/
def hostWrite (off : Offset) (v : Word) : Input := .host (.write off v)

/-- The byte of a string at an index, missing bytes 0x00 (30_encoding.md R90). -/
def byteAt (bs : List Byte) (i : Nat) : Byte := bs.getD i 0x00

/-- `TXLOAD "s"` with `s` of 1..8 bytes (30_encoding.md R90): the writes of TXD0 and TXD1. -/
def txload (bs : List Byte) : List Input :=
  [ hostWrite 0x030 (byteAt bs 3 ++ byteAt bs 2 ++ byteAt bs 1 ++ byteAt bs 0),
    hostWrite 0x034 (byteAt bs 7 ++ byteAt bs 6 ++ byteAt bs 5 ++ byteAt bs 4) ]

/-- `k` polls of `WAITIDLE`: reads of STATUS (30_encoding.md R90). How often the host polls depends on what it
reads; `k` stands for that number (log entry 14). -/
def waitIdle (k : Nat) : List Input := List.replicate k (.host (.read 0x004))

/-- What ends `WAITIDLE`: bit 0 (BUSY) of the STATUS value reads 0 (30_encoding.md R90). -/
def readsIdle (status : Word) : Bool := !status.getLsbD 0

/-- `XFER "s", l` with `k` polls (30_encoding.md R90). -/
def xfer (bs : List Byte) (l : Nat) (k : Nat) : List Input :=
  txload bs ++ ((assemble "QUERY" [bs.length, l]).map (hostWrite 0x008)).toList ++ waitIdle k

/-- `CLRINT` (30_encoding.md R90). -/
def clrint : List Input := [hostWrite 0x028 0x1F]

end Sys2Proof.Machine
end

