-- ==== Sys2Proof/Safety.lean ====
section
/-! DEFINITION. The terms claims are stated in: the invariant of reachable states (10_state.md R26), the duties of
the environment (93_implementation_defined.md section 4), and the bound on a command's ticks
(70_reset_and_hazards.md R246). -/

namespace Sys2Proof.Machine

/-- What holds in every state a run reaches from reset: the clauses of 10_state.md R26, with what the rules need
beside them to be kept by every step. DEDUCED where a clause names no letter of R26. -/
structure Inv (s : State) : Prop where
  /-- R26(a) -/
  idle_iff : s.phase = .idle ↔ s.curop = 0
  /-- R26(b) -/
  gpio_iff : s.pinmode = .gpio ↔ s.phase = .brk
  /-- R26(b) -/
  high_iff : s.level = .high ↔ s.phase = .brk
  /-- R26(c) -/
  cnt_busy : s.phase ≠ .idle → 1 ≤ s.cnt.toNat
  /-- 60_exceptions.md R216: "It is 0 after reset and after every completion" -/
  cnt_idle : s.phase = .idle → s.cnt = 0
  /-- R26(d) (log entry 5) -/
  txn_le : s.txn.toNat ≤ 8
  /-- R26(d) (log entry 5) -/
  txidx_le : s.txidx.toNat ≤ s.txn.toNat
  /-- 41_transfer.md R131: the first byte has been handed over -/
  send_index : s.phase = .send → 1 ≤ s.txidx.toNat
  /-- R26(f), and the byte handed over is in flight (41_transfer.md R131, R133) -/
  send_line : s.phase = .send → s.role = .transmit ∧ s.txpend = true
  /-- R26(e) -/
  recv_line : s.phase = .recv → s.role = .receive ∧ 1 ≤ s.rxmax.toNat ∧ s.rxraw.toNat < s.rxmax.toNat
  /-- 20_memory.md R59: "LEN reads 0" while a receive runs -/
  recv_len : s.phase = .recv → s.rxlen = 0
  /-- R26(g) -/
  rxlen_le : s.rxlen.toNat ≤ s.rxraw.toNat
  /-- R26(g) -/
  rxraw_le : s.rxraw.toNat ≤ 128
  /-- R26(e), width column of R20 -/
  rxmax_le : s.rxmax.toNat ≤ 128
  /-- R26(h) -/
  break_floor : 12000 ≤ s.breakUs.toNat
  /-- R26(h) -/
  mark_floor : 8300 ≤ s.markUs.toNat
  /-- R26(i), and 30_encoding.md R86 -/
  running_result : s.phase ≠ .idle → s.rcode = .none ∧ s.rop = s.curop
  /-- R26(j) -/
  receive_flushed : s.role = .receive → s.txpend = false
  /-- WAKE and QUERY start only with no byte in flight (30_encoding.md R85) -/
  wake_flushed : s.phase = .brk ∨ s.phase = .mark → s.txpend = false
  /-- 40_wake_duplex.md R103 -/
  wake_op : s.phase = .brk ∨ s.phase = .mark → s.curop = 0x01 ∨ s.curop = 0x08
  /-- 41_transfer.md R133 -/
  send_op : s.phase = .send → s.curop = 0x04 ∨ s.curop = 0x08
  /-- 41_transfer.md R142 -/
  recv_op : s.phase = .recv → s.curop = 0x05 ∨ s.curop = 0x08
  /-- the arguments of a running QUERY (41_transfer.md R150) -/
  query_args : s.curop = 0x08 → 1 ≤ s.txn.toNat ∧ 1 ≤ s.rxmax.toNat
  /-- 41_transfer.md R131, R135 -/
  send_timer : s.phase = .send → s.cnt.toNat ≤ Config.pTtoUs.toNat
  /-- 41_transfer.md R142, R143, R144 -/
  recv_timer : s.phase = .recv → s.cnt.toNat ≤ Config.pBtoUs.toNat
  /-- `rxbuf` is 128 bytes in canonical form -/
  rxbuf_wf : s.rxbuf.wf Config.rxCap = true
  /-- `txbuf` is 8 bytes in canonical form -/
  txbuf_wf : s.txbuf.wf Config.txCap = true

/-- What the environment owes when it delivers an input (93_implementation_defined.md section 4): an `rx_byte`
only in Receive role with the pin under the peripheral (10_state.md R41), a `tx_done` only for a byte in flight
(R42, R43). The machine handles every delivery; a run that breaks a duty is the environment's fault (log entry 9). -/
def keepsDuty (i : Input) (s : State) : Prop :=
  match i with
  | .reset => True
  | .terr => True
  | .rxByte _ => s.role = .receive ∧ s.pinmode = .periph
  | .txDone => s.txpend = true
  | .tick => True
  | .host _ => True

/-- Every one of the next `n` inputs keeps its duty in the state that takes it. -/
def dutiesKept (n : Nat) (s : State) : Prop :=
  match n with
  | 0 => True
  | n + 1 =>
    (∀ i rest, s.inputs = i :: rest → keepsDuty i s) ∧ ∀ t, step s = .next t → dutiesKept n t

/-- The ticks a QUERY may still take after its transmission (70_reset_and_hazards.md R246). -/
def ticksAfterSend (s : State) : Nat :=
  if s.curop = 0x08 then s.rxmax.toNat * Config.pBtoUs.toNat else 0

/-- The ticks a QUERY may still take after its marking (70_reset_and_hazards.md R246). -/
def ticksAfterMark (s : State) : Nat :=
  if s.curop = 0x08 then Config.pTtoUs.toNat + s.rxmax.toNat * Config.pBtoUs.toNat else 0

/-- The most ticks the running command can still take (70_reset_and_hazards.md R246); 0 while idle. -/
def ticksLeft (s : State) : Nat :=
  match s.phase with
  | .idle => 0
  | .brk => s.cnt.toNat + s.markUs.toNat + ticksAfterMark s
  | .mark => s.cnt.toNat + ticksAfterMark s
  | .send => s.cnt.toNat + ticksAfterSend s
  | .recv => s.cnt.toNat + (s.rxmax.toNat - s.rxraw.toNat - 1) * Config.pBtoUs.toNat

/-- The number of ticks among the next `n` inputs. -/
def ticksAhead (n : Nat) (s : State) : Nat := (s.inputs.take n).count .tick

/-- `n` steps of the machine. -/
def runSteps (n : Nat) (s : State) : Host.Outcome State Fault Refusal := Sys2Proof.core.run n s

end Sys2Proof.Machine
end

