-- ==== Sys2Proof/Certificates/Slice0/Obligations.lean ====
section
/-! DEFINITION. The statements for the provers. A statement about an input gives the whole next state by a record
update, so that every field it does not name is unchanged (the frame). How an input is taken (off `inputs`) and how
a step's outputs are kept (`State.record`, on `trace`) is the model's form, in every statement about a step (log
entries 1 and 2). -/

open Sys2Proof Sys2Proof.Machine

/-! ## Encoding -/

/-- 30_encoding.md R89: the words it writes out decode to the commands they stand for. -/
def Obligations.ListedWordsDecode : Prop :=
  decode 0x00000001 = .command .wake ∧ decode 0x00000002 = .command .dirTx ∧
  decode 0x00000003 = .command .dirRx ∧ decode 0x00000204 = .command (.send 2) ∧
  decode 0x00100005 = .command (.recv 16) ∧ decode 0x00040006 = .command (.crc 4) ∧
  decode 0x00000007 = .command .check ∧ decode 0x00100208 = .command (.query 2 16)

/-- 30_encoding.md R82, R83, R85: the decoder reads back every command from its word, at every operand value. -/
def Obligations.DecodeOfEncode : Prop := ∀ i : Instr, decode (encode i) = .command i

/-- 30_encoding.md R82, R83, R85: a word that decodes to a command is that command's word, so no bit is dropped and
no command has two words. -/
def Obligations.EncodeOfDecode : Prop := ∀ (v : Word) (i : Instr), decode v = .command i → encode i = v

/-- spec/opcode_table.json: a word matches a row's mask and match exactly when it decodes to that row's command. -/
def Obligations.OpcodeTableIsTheDecoder : Prop :=
  ∀ (v : Word) (r : OpcodeRow), r ∈ opcodeTable →
    (r.accepts v = true ↔ ∃ i, decode v = .command i ∧ i.mnemonic = r.mnemonic)

/-- 30_encoding.md R89 with the ranges of R83: the assembler writes a word for exactly the commands with operands in
range, and the word is the encoding. That it writes none for any other line (an operand out of range, a wrong number of
operands, another mnemonic) is the model's choice (log entry 14). -/
def Obligations.AssemblerWritesTheEncoding : Prop :=
  ∀ (mnemonic : String) (operands : List Nat) (v : Word),
    assemble mnemonic operands = some v ↔
      ∃ i : Instr, i.wf = true ∧ i.mnemonic = mnemonic ∧ v = encode i ∧
        operands = match i with
          | .wake => []
          | .dirTx => []
          | .dirRx => []
          | .send n => [n.toNat]
          | .recv l => [l.toNat]
          | .crc l => [l.toNat]
          | .check => []
          | .query n l => [n.toNat, l.toNat]

/-- 30_encoding.md R87, with the words it lists spelled by their bits: each completes at once with ILLEGAL, sets
DONE and ERR and records its opcode (R85). Every other word decodes to a command. -/
def Obligations.IllegalWordCompletesIllegal : Prop :=
  ∀ (v : Word) (off : Offset) (rest : List Input) (s : State), s.phase = .idle →
    s.inputs = .host (.write off v) :: rest → off &&& 0xFFC = 0x008 →
    let op := (v.extractLsb' 0 8).toNat
    let illegal := op = 0 ∨ 9 ≤ op ∨ v.extractLsb' 12 4 ≠ 0 ∨ v.extractLsb' 24 8 ≠ 0 ∨
      (v.extractLsb' 8 4 ≠ 0 ∧ (op = 1 ∨ op = 2 ∨ op = 3 ∨ op = 5 ∨ op = 6 ∨ op = 7)) ∨
      (v.extractLsb' 16 8 ≠ 0 ∧ (op = 1 ∨ op = 2 ∨ op = 3 ∨ op = 4 ∨ op = 7))
    (illegal → step s = .next (State.record (.host (.write off v))
      { s with
        inputs := rest
        rop := v.extractLsb' 0 8
        rcode := .illegal
        curop := 0
        cnt := 0
        intstat := s.intstat ||| 0x03 })) ∧
    (¬ illegal → ∃ i, decode v = .command i)

/-! ## Steps -/

/-- 20_memory.md R56 and 30_encoding.md R85: while idle, a step that takes a write to CMD runs the command its word
decodes to, whatever bits [1:0] of the offset are (R51), and records the outputs. -/
def Obligations.StepRunsDecodedCommand : Prop :=
  ∀ (v : Word) (off : Offset) (i : Instr) (rest : List Input) (s : State), s.phase = .idle →
    s.inputs = .host (.write off v) :: rest → off &&& 0xFFC = 0x008 → decode v = .command i →
    step s = recordOutcome (.host (.write off v)) (exec i { s with inputs := rest })

/-- The model's choice of how a command is placed (log entry 11): after `withFetchWord` the next step runs exactly
the command of the placed word, in the state made idle. -/
def Obligations.PlacedWordRunsNext : Prop :=
  ∀ (v : Word) (i : Instr) (s : State), decode v = .command i →
    step (s.withFetchWord 32 v.toNat) =
      recordOutcome (.host (.write 0x008 v)) (exec i { s with phase := .idle })

/-- 93_implementation_defined.md section 4, "every event in every state has a defined effect": every step of every
state answers a next state. With no input pending nothing changes (the model's choice, log entry 1). -/
def Obligations.StepAnswersNext : Prop :=
  ∀ s : State, (∃ t, step s = .next t) ∧ (s.inputs = [] → step s = .next s)

/-! ## The commands -/

/-- 40_wake_duplex.md R101 for both its users, with R100 and 41_transfer.md R150: with no byte in flight (and, for
QUERY, its arguments in range) WAKE and QUERY start the break, whatever the role. That an issued QUERY's `txidx` is 0
is the model's reading of 10_state.md R26(d) (log entry 5). -/
def Obligations.WakeAndQueryStartBreak : Prop :=
  ∀ s : State, s.txpend = false →
    exec .wake s = .next
      { s with
        rop := 0x01
        rcode := .none
        curop := 0x01
        pinmode := .gpio
        level := .high
        phase := .brk
        cnt := s.breakUs.setWidth 32 } ∧
    ∀ (n : BitVec 4) (l : BitVec 8), 1 ≤ n.toNat → n.toNat ≤ 8 → 1 ≤ l.toNat → l.toNat ≤ 128 →
      exec (.query n l) s = .next
        { s with
          rop := 0x08
          rcode := .none
          curop := 0x08
          txn := n
          txidx := 0
          rxmax := l
          pinmode := .gpio
          level := .high
          phase := .brk
          cnt := s.breakUs.setWidth 32 }

/-- 40_wake_duplex.md R110: DIR.TX sets the role to Transmit and completes OK in its step, from either role and with
or without a byte in flight. -/
def Obligations.DirTxSetsTransmit : Prop :=
  ∀ s : State, exec .dirTx s = .next
    { s with
      role := .transmit
      rop := 0x02
      rcode := .ok
      phase := .idle
      curop := 0
      cnt := 0
      intstat := s.intstat ||| 0x01 }

/-- 40_wake_duplex.md R112: DIR.RX sets the role to Receive and completes OK when no byte is in flight; otherwise
it completes TXPEND and the role stays. -/
def Obligations.DirRxSetsReceive : Prop :=
  ∀ s : State,
    (s.txpend = false → exec .dirRx s = .next
      { s with
        role := .receive
        rop := 0x03
        rcode := .ok
        phase := .idle
        curop := 0
        cnt := 0
        intstat := s.intstat ||| 0x01 }) ∧
    (s.txpend = true → exec .dirRx s = .next
      { s with
        rop := 0x03
        rcode := .txPend
        phase := .idle
        curop := 0
        cnt := 0
        intstat := s.intstat ||| 0x03 })

/-- 41_transfer.md R130 and R131: an accepted SEND n starts the transmission with its timer at P_TTO_US and hands over
`txbuf[0]`. -/
def Obligations.SendHandsOverFirstByte : Prop :=
  ∀ (n : BitVec 4) (s : State), 1 ≤ n.toNat → n.toNat ≤ 8 → s.role = .transmit → s.txpend = false →
    exec (.send n) s = .next
      { s with
        rop := 0x04
        rcode := .none
        curop := 0x04
        phase := .send
        cnt := Config.pTtoUs
        txn := n
        txidx := 1
        txpend := true
        trace := .txByte (s.txbuf.read 0) :: s.trace }

/-- 41_transfer.md R140 and R142: an accepted RECV l arms the receiver with its timer at P_BTO_US and clears no buffer
byte. -/
def Obligations.RecvArmsReceiver : Prop :=
  ∀ (l : BitVec 8) (s : State), 1 ≤ l.toNat → l.toNat ≤ 128 → s.role = .receive →
    exec (.recv l) s = .next
      { s with
        rop := 0x05
        rcode := .none
        curop := 0x05
        phase := .recv
        rxmax := l
        rxraw := 0
        rxlen := 0
        cnt := Config.pBtoUs }

/-- 42_checksum.md R171 and R174: CRC l with `l` in 0..128 completes OK and leaves in `crcval` the fold of `crc_byte`
from `crcinit` over the bytes of the receive buffer before the first CR, at most `l` of them. -/
def Obligations.CrcFoldsBufferUpToCr : Prop :=
  ∀ (l : BitVec 8) (s : State), l.toNat ≤ 128 →
    exec (.crc l) s = .next
      { s with
        crcval := crcFold s.crcinit (((List.range l.toNat).map s.rxbuf.read).takeWhile (· != 0x0D))
        rop := 0x06
        rcode := .ok
        phase := .idle
        curop := 0
        cnt := 0
        intstat := s.intstat ||| 0x01 }

/-- 42_checksum.md R176 and R177: CHECK completes in its step with MALFORMED, OK or CRCMISMATCH; `crcval` is the
computed value in the last two cases and unchanged in the first. -/
def Obligations.CheckReportsTheComparison : Prop :=
  ∀ s : State,
    let body := s.rxlen.toNat - 3
    let c := crcFold s.crcinit (((List.range body).map s.rxbuf.read).takeWhile (· != 0x0D))
    let code := (s.rxbuf.read body, s.rxbuf.read (body + 1), s.rxbuf.read (body + 2))
    let done (r : ResultCode) (v : Half) (flags : BitVec 5) : State :=
      { s with
        crcval := v
        rop := 0x07
        rcode := r
        phase := .idle
        curop := 0
        cnt := 0
        intstat := s.intstat ||| flags }
    (s.rxlen.toNat < 3 → exec .check s = .next (done .malformed s.crcval 0x03)) ∧
    (3 ≤ s.rxlen.toNat → code = enc3 c → exec .check s = .next (done .ok c 0x01)) ∧
    (3 ≤ s.rxlen.toNat → code ≠ enc3 c → exec .check s = .next (done .crcMismatch c 0x03))

/-- 60_exceptions.md R212 (the order of 30_encoding.md R85): a CMD write while idle reports ILLEGAL for an illegal
word, else BADARG for arguments out of range, else ROLE for a SEND in Receive or a RECV in Transmit, else TXPEND for
a WAKE, DIR.RX, SEND or QUERY with a byte in flight, and none of these for a command that passes every check. A write
while busy only sets OVR. -/
def Obligations.FirstFailingCheckDecides : Prop :=
  ∀ (v : Word) (off : Offset) (rest : List Input) (s : State),
    s.inputs = .host (.write off v) :: rest → off &&& 0xFFC = 0x008 →
    (s.phase ≠ .idle → step s = .next (State.record (.host (.write off v))
      { s with inputs := rest, intstat := s.intstat ||| 0x04 })) ∧
    (s.phase = .idle → ∃ t, step s = .next t ∧
      match decode v with
      | .illegal _ => t.rcode = .illegal
      | .command i =>
        let roleFails := (i.opcode = 0x04 ∧ s.role ≠ .transmit) ∨ (i.opcode = 0x05 ∧ s.role ≠ .receive)
        let pendFails := (i.opcode = 0x01 ∨ i.opcode = 0x03 ∨ i.opcode = 0x04 ∨ i.opcode = 0x08) ∧
          s.txpend = true
        (i.wf = false → t.rcode = .badArg) ∧
        (i.wf = true → roleFails → t.rcode = .role) ∧
        (i.wf = true → ¬ roleFails → pendFails → t.rcode = .txPend) ∧
        (i.wf = true → ¬ roleFails → ¬ pendFails →
          t.rcode ≠ .illegal ∧ t.rcode ≠ .badArg ∧ t.rcode ≠ .role ∧ t.rcode ≠ .txPend))

/-- 30_encoding.md R85, "A rejected command changes no field except `rop`, `rcode` and `intstat`", in every idle state
that meets the invariant (in which the counter and `curop` are already 0). -/
def Obligations.RejectedCommandChangesOnlyTheResult : Prop :=
  ∀ (i : Instr) (s t : State), Inv s → s.phase = .idle → exec i s = .next t →
    t.rcode = .badArg ∨ t.rcode = .role ∨ t.rcode = .txPend →
    t = { s with rop := i.opcode, rcode := t.rcode, intstat := s.intstat ||| 0x03 }

/-- 30_encoding.md R86: an accepted command either completes in its step (DIR.TX, DIR.RX, CRC, CHECK) or makes the SPE
busy with its opcode in `curop` (WAKE, SEND, RECV, QUERY); and while a command keeps the SPE busy, `rcode` stays
NONE and `rop` holds its opcode. -/
def Obligations.AcceptedCommandCompletesOrRuns : Prop :=
  (∀ (i : Instr) (s t : State), exec i s = .next t →
    t.rcode ≠ .badArg → t.rcode ≠ .role → t.rcode ≠ .txPend →
    t.rop = i.opcode ∧
    ((i.opcode = 0x02 ∨ i.opcode = 0x03 ∨ i.opcode = 0x06 ∨ i.opcode = 0x07) ∧ t.phase = .idle ∧
        t.rcode ≠ .none ∨
      (i.opcode = 0x01 ∨ i.opcode = 0x04 ∨ i.opcode = 0x05 ∨ i.opcode = 0x08) ∧ t.phase ≠ .idle ∧
        t.curop = i.opcode ∧ t.rcode = .none)) ∧
  (∀ s t : State, Inv s → s.phase ≠ .idle → step s = .next t → t.phase ≠ .idle →
    t.rcode = .none ∧ t.rop = s.rop ∧ t.curop = s.curop ∧ t.rop = t.curop)

/-! ## Registers -/

/-- 20_memory.md R52: a read answers the register's value and changes no field of the SPE; and in every state ID, CMD,
TIMING, CRCINIT, CRCVAL, CRCIN, INTEN, INTSTAT, TXD0 and TXD1 read as their rules say (R56, R60 to R66, 10_state.md
R24), and a word offset with no register reads 0. (STATUS, RESULT, RXLEN and RXBUF have statements of their own.) -/
def Obligations.RegReadHasNoSideEffect : Prop :=
  (∀ (off : Offset) (rest : List Input) (s : State), s.inputs = .host (.read off) :: rest →
    step s = .next (State.record (.host (.read off))
      { s with inputs := rest, trace := .readData off (s.regValue off) :: s.trace })) ∧
  ∀ s : State,
    s.regValue 0x000 = 0x53500001 ∧ s.regValue 0x008 = 0 ∧ s.regValue 0x014 = s.markUs ++ s.breakUs ∧
    s.regValue 0x018 = s.crcinit.setWidth 32 ∧ s.regValue 0x01C = s.crcval.setWidth 32 ∧
    s.regValue 0x020 = 0 ∧ s.regValue 0x024 = s.inten.setWidth 32 ∧ s.regValue 0x028 = s.intstat.setWidth 32 ∧
    (∀ j, j < 4 → (s.regValue 0x030).extractLsb' (8 * j) 8 = s.txbuf.read j ∧
      (s.regValue 0x034).extractLsb' (8 * j) 8 = s.txbuf.read (4 + j)) ∧
    ∀ off woff : Offset, off &&& 0xFFC = woff →
      woff = 0x02C ∨ (0x038 ≤ woff.toNat ∧ woff.toNat ≤ 0x0FC) ∨ 0x180 ≤ woff.toNat →
      s.regValue off = 0

/-- 20_memory.md R50 and R51: bits [1:0] of an offset are ignored, in a read and in a write; and the bus addresses
`BASE .. BASE + 4095` select the SPE, at the offset from BASE. That no other address selects it is the model's choice
(log entry 4). -/
def Obligations.AccessGoesToTheWordOffset : Prop :=
  (∀ (off : Offset) (v : Word) (s : State),
    s.regValue off = s.regValue (off &&& 0xFFC) ∧ regWrite off v s = regWrite (off &&& 0xFFC) v s) ∧
  (∀ off : Offset, windowOffset (Config.base + off.toNat) = some off) ∧
  (∀ addr : Nat, addr < Config.base ∨ Config.base + 4096 ≤ addr → windowOffset addr = none)

/-- 20_memory.md R53: a write to a read-only register (ID, STATUS, RESULT, RXLEN, RXBUFk) or to a reserved word offset
changes nothing and sets no flag, busy or idle. -/
def Obligations.ReadOnlyWritesIgnored : Prop :=
  ∀ (off : Offset) (v : Word) (s : State), (let woff := (off &&& 0xFFC).toNat
    woff = 0x000 ∨ woff = 0x004 ∨ woff = 0x00C ∨ woff = 0x010 ∨ woff = 0x02C ∨ 0x038 ≤ woff) →
    regWrite off v s = .next s

/-- 20_memory.md R57: while busy, a write to CMD, TIMING, CRCINIT, CRCVAL, CRCIN, TXD0 or TXD1 only sets OVR; INTEN and
INTSTAT are written normally. So no write of any register changes the bytes to send, the durations or the CRC state
under a running command. -/
def Obligations.WritesWhileBusy : Prop :=
  ∀ (v : Word) (s : State), s.phase ≠ .idle →
    (∀ off : Offset, off &&& 0xFFC = 0x008 ∨ off &&& 0xFFC = 0x014 ∨ off &&& 0xFFC = 0x018 ∨
        off &&& 0xFFC = 0x01C ∨ off &&& 0xFFC = 0x020 ∨ off &&& 0xFFC = 0x030 ∨ off &&& 0xFFC = 0x034 →
      regWrite off v s = .next { s with intstat := s.intstat ||| 0x04 }) ∧
    regWrite 0x024 v s = .next { s with inten := v.extractLsb' 0 5 } ∧
    regWrite 0x028 v s = .next { s with intstat := s.intstat &&& ~~~(v.extractLsb' 0 5) } ∧
    ∀ (off : Offset) (t : State), regWrite off v s = .next t →
      t.txbuf = s.txbuf ∧ t.breakUs = s.breakUs ∧ t.markUs = s.markUs ∧ t.crcinit = s.crcinit ∧
      t.crcval = s.crcval

/-- 20_memory.md R60: an idle write of TIMING stores each field raised to its floor, 12000 and 8300, changes nothing
else, and the register reads what was stored. -/
def Obligations.TimingWriteRaisesToTheFloors : Prop :=
  ∀ (v : Word) (s : State), s.phase = .idle → ∃ t, regWrite 0x014 v s = .next t ∧
    t.breakUs.toNat = max (v.extractLsb' 0 16).toNat 12000 ∧
    t.markUs.toNat = max (v.extractLsb' 16 16).toNat 8300 ∧
    t = { s with breakUs := t.breakUs, markUs := t.markUs } ∧
    t.regValue 0x014 = t.markUs ++ t.breakUs

/-- 20_memory.md R61, R62 and R63: idle writes of CRCINIT, CRCVAL and CRCIN. -/
def Obligations.CrcRegisterWrites : Prop :=
  ∀ (v : Word) (s : State), s.phase = .idle →
    regWrite 0x018 v s = .next { s with crcinit := v.extractLsb' 0 16 } ∧
    regWrite 0x01C v s = .next { s with crcval := v.extractLsb' 0 16 } ∧
    regWrite 0x020 v s = .next { s with crcval := crcByte s.crcval (v.extractLsb' 0 8) } ∧
    s.regValue 0x018 = s.crcinit.setWidth 32 ∧ s.regValue 0x01C = s.crcval.setWidth 32 ∧
    s.regValue 0x020 = 0

/-- 20_memory.md R64 and R65: INTEN takes bits [4:0], INTSTAT is write-1-to-clear, both in every phase, and each reads
its five bits. -/
def Obligations.InterruptRegisterWrites : Prop :=
  ∀ (v : Word) (s : State),
    regWrite 0x024 v s = .next { s with inten := v.extractLsb' 0 5 } ∧
    (∃ t, regWrite 0x028 v s = .next t ∧ t = { s with intstat := t.intstat } ∧
      ∀ k, k < 5 → t.intstat.getLsbD k = (s.intstat.getLsbD k && !v.getLsbD k)) ∧
    s.regValue 0x024 = s.inten.setWidth 32 ∧ s.regValue 0x028 = s.intstat.setWidth 32

/-- 20_memory.md R65, "Nothing but this write and reset clears a bit", over every step. -/
def Obligations.FlagsClearedOnlyByHostOrReset : Prop :=
  ∀ (k : Nat) (s t : State), step s = .next t → s.intstat.getLsbD k = true → t.intstat.getLsbD k = false →
    ∃ rest, s.inputs = .reset :: rest ∨
      ∃ off v, s.inputs = .host (.write off v) :: rest ∧ off &&& 0xFFC = 0x028 ∧ v.getLsbD k = true

/-- 20_memory.md R66 and R68: an idle write of TXD0 or TXD1 sets the four bytes of its word, low byte first, changes no
other byte of the buffer and no other field, and reads back. The buffer's canonical form is a premise (it is a part
of `Inv`). -/
def Obligations.TxdWriteReadsBack : Prop :=
  ∀ (v : Word) (s : State), s.phase = .idle → s.txbuf.wf 8 = true →
    ∀ (off : Offset) (a : Nat), (off = 0x030 ∧ a = 0) ∨ (off = 0x034 ∧ a = 4) →
      ∃ t, regWrite off v s = .next t ∧ t = { s with txbuf := t.txbuf } ∧ t.regValue off = v ∧
        (∀ k, k < 4 → t.txbuf.read (a + k) = v.extractLsb' (8 * k) 8) ∧
        (∀ j, j < a ∨ a + 4 ≤ j → t.txbuf.read j = s.txbuf.read j) ∧ t.txbuf.wf 8 = true

/-- 20_memory.md R67 and R68: byte `j` of the word RXBUFk is `rxbuf[4k + j]`, for every `k` and whatever `rxraw` is. -/
def Obligations.RxbufWindowIsLittleEndian : Prop :=
  ∀ (s : State) (k j : Nat), k < 32 → j < 4 →
    (s.regValue (BitVec.ofNat 12 (0x100 + 4 * k))).extractLsb' (8 * j) 8 = s.rxbuf.read (4 * k + j)

/-- 20_memory.md R55, R58 and R59 with the codes of 60_exceptions.md R200: the fields of STATUS, RESULT and RXLEN at
their bit positions. -/
def Obligations.StatusResultRxlenFields : Prop :=
  ∀ s : State,
    (let w := s.regValue 0x004
     w.getLsbD 0 = decide (s.phase ≠ .idle) ∧ w.getLsbD 1 = decide (s.role = .transmit) ∧
     w.getLsbD 2 = decide (s.pinmode = .gpio) ∧ w.getLsbD 3 = decide (s.level = .high) ∧
     w.getLsbD 4 = s.txpend ∧ w.extractLsb' 5 3 = 0 ∧
     w.extractLsb' 8 3 = (match s.phase with
       | .idle => 0
       | .brk => 1
       | .mark => 2
       | .send => 3
       | .recv => 4) ∧
     w.extractLsb' 11 5 = 0 ∧ w.extractLsb' 16 8 = s.curop ∧ w.extractLsb' 24 8 = 0) ∧
    (let w := s.regValue 0x00C
     w.extractLsb' 0 4 = (match s.rcode with
       | .none => 0
       | .ok => 1
       | .eol => 2
       | .noDev => 3
       | .partialLine => 4
       | .full => 5
       | .txTimeout => 6
       | .transport => 7
       | .crcMismatch => 8
       | .malformed => 9
       | .illegal => 10
       | .badArg => 11
       | .role => 12
       | .txPend => 13) ∧
     w.extractLsb' 4 4 = 0 ∧ w.extractLsb' 8 8 = s.rop ∧
     w.extractLsb' 16 16 = 0) ∧
    (let w := s.regValue 0x010
     w.extractLsb' 0 8 = s.rxlen ∧ w.extractLsb' 8 8 = s.rxraw ∧ w.extractLsb' 16 8 = s.rxmax ∧
     w.extractLsb' 24 8 = 0)

/-! ## The wake sequencer -/

/-- 40_wake_duplex.md R102 and R104: a tick that takes the break counter to zero releases the pin low, hands it back
to the peripheral and starts the marking with `mark_us`; an earlier tick of break or marking only counts down. -/
def Obligations.EndOfBreakStartsMarking : Prop :=
  ∀ (rest : List Input) (s : State), s.inputs = .tick :: rest →
    (s.phase = .brk → s.cnt = 1 → step s = .next (State.record .tick
      { s with
        inputs := rest
        level := .low
        pinmode := .periph
        phase := .mark
        cnt := s.markUs.setWidth 32 })) ∧
    (s.phase = .brk ∨ s.phase = .mark → 2 ≤ s.cnt.toNat →
      step s = .next (State.record .tick { s with inputs := rest, cnt := s.cnt - 1 }))

/-- 40_wake_duplex.md R103 and 41_transfer.md R151: at the end of marking a WAKE completes OK, and a QUERY takes the
Transmit role and hands over `txbuf[0]` in the same step. -/
def Obligations.EndOfMarking : Prop :=
  ∀ (rest : List Input) (s : State), s.inputs = .tick :: rest → s.phase = .mark → s.cnt = 1 →
    (s.curop = 0x01 → step s = .next (State.record .tick
      { s with
        inputs := rest
        rcode := .ok
        phase := .idle
        curop := 0
        cnt := 0
        intstat := s.intstat ||| 0x01 })) ∧
    (s.curop = 0x08 → step s = .next (State.record .tick
      { s with
        inputs := rest
        role := .transmit
        phase := .send
        cnt := Config.pTtoUs
        txpend := true
        txidx := 1
        trace := .txByte (s.txbuf.read 0) :: s.trace }))

/-- 40_wake_duplex.md R105 (which the spec derives), whatever else happens beside `terr` and `reset` (received bytes,
`tx_done`, host accesses): from a break with `cnt` ticks to go, the pin is driven high until `cnt` ticks have passed;
then the marking runs with the pin released, until exactly `mark_us` more ticks have passed, and ends at the last of
them. Until then no byte is handed over and the role stays. -/
def Obligations.BreakThenMarkingDurations : Prop :=
  ∀ (n : Nat) (s : State), s.phase = .brk → s.pinmode = .gpio → s.level = .high →
    1 ≤ s.cnt.toNat → 1 ≤ s.markUs.toNat → s.curop = 0x01 ∨ s.curop = 0x08 →
    Input.terr ∉ s.inputs.take n → Input.reset ∉ s.inputs.take n →
    let ticks := (s.inputs.take n).count .tick
    (ticks < s.cnt.toNat → ∃ t, runSteps n s = .next t ∧ t.phase = .brk ∧ t.pinmode = .gpio ∧
      t.level = .high ∧ t.role = s.role ∧ t.cnt.toNat = s.cnt.toNat - ticks ∧
      txBytesOf t.trace = txBytesOf s.trace) ∧
    (s.cnt.toNat ≤ ticks → ticks < s.cnt.toNat + s.markUs.toNat →
      ∃ t, runSteps n s = .next t ∧ t.phase = .mark ∧ t.pinmode = .periph ∧ t.level = .low ∧
        t.role = s.role ∧ t.cnt.toNat = s.cnt.toNat + s.markUs.toNat - ticks ∧
        txBytesOf t.trace = txBytesOf s.trace) ∧
    (ticks = s.cnt.toNat + s.markUs.toNat → (s.inputs.take n).getLast? = some .tick →
      ∃ t, runSteps n s = .next t ∧ t.phase ≠ .brk ∧ t.phase ≠ .mark ∧ t.pinmode = .periph ∧
        t.level = .low ∧ t.inputs = s.inputs.drop n)

/-- 40_wake_duplex.md R100 and R106 with 70_reset_and_hazards.md R246, "WAKE: exactly `break_us + mark_us` ticks",
whatever else happens beside `terr` and `reset`: a WAKE issued while idle keeps the SPE busy until that many ticks have
passed and completes OK at the last of them. The role and the buffers are unchanged and no byte is handed over. -/
def Obligations.WakeTakesBreakPlusMarkingTicks : Prop :=
  ∀ (n : Nat) (rest : List Input) (s : State), s.phase = .idle → s.txpend = false →
    1 ≤ s.breakUs.toNat → 1 ≤ s.markUs.toNat → s.inputs = .host (.write 0x008 0x00000001) :: rest →
    Input.terr ∉ rest.take n → Input.reset ∉ rest.take n →
    let ticks := (rest.take n).count .tick
    (ticks < s.breakUs.toNat + s.markUs.toNat → ∃ t, runSteps (1 + n) s = .next t ∧ t.phase ≠ .idle ∧
      t.curop = 0x01 ∧ t.rcode = .none ∧ t.role = s.role ∧ txBytesOf t.trace = txBytesOf s.trace) ∧
    (ticks = s.breakUs.toNat + s.markUs.toNat → (rest.take n).getLast? = some .tick →
      ∃ t, runSteps (1 + n) s = .next t ∧ t.phase = .idle ∧ t.curop = 0 ∧ t.cnt = 0 ∧ t.rcode = .ok ∧
        t.rop = 0x01 ∧ t.role = s.role ∧ t.pinmode = .periph ∧ t.level = .low ∧ t.rxbuf = s.rxbuf ∧
        t.txbuf = s.txbuf ∧ t.inputs = rest.drop n ∧ txBytesOf t.trace = txBytesOf s.trace ∧
        t.intstat.getLsbD 0 = true ∧
        ((∀ i ∈ rest.take n, i = .tick) → t.intstat = s.intstat ||| 0x01))

/-! ## Transmission -/

/-- 41_transfer.md R133 (with R152 for the turnaround): a `tx_done` in SEND with a byte in flight hands over the next
byte, or after the last byte completes the SEND with OK or turns the QUERY around to an armed receive. The
transmit timer is not reloaded. -/
def Obligations.TxDoneDuringSend : Prop :=
  ∀ (rest : List Input) (s : State), s.inputs = .txDone :: rest → s.phase = .send → s.txpend = true →
    (s.txidx.toNat < s.txn.toNat → step s = .next (State.record .txDone
      { s with
        inputs := rest
        txpend := true
        txidx := s.txidx + 1
        trace := .txByte (s.txbuf.read s.txidx.toNat) :: s.trace })) ∧
    (s.txn.toNat ≤ s.txidx.toNat → s.curop = 0x04 → step s = .next (State.record .txDone
      { s with
        inputs := rest
        txpend := false
        rcode := .ok
        phase := .idle
        curop := 0
        cnt := 0
        intstat := s.intstat ||| 0x01 })) ∧
    (s.txn.toNat ≤ s.txidx.toNat → s.curop = 0x08 → step s = .next (State.record .txDone
      { s with
        inputs := rest
        txpend := false
        role := .receive
        phase := .recv
        rxraw := 0
        rxlen := 0
        cnt := Config.pBtoUs }))

/-- 41_transfer.md R134: a `tx_done` outside SEND clears `txpend` and nothing else, and one with nothing in flight
changes nothing, in any phase. -/
def Obligations.TxDoneElsewhere : Prop :=
  ∀ (rest : List Input) (s : State), s.inputs = .txDone :: rest →
    (s.phase ≠ .send → s.txpend = true →
      step s = .next (State.record .txDone { s with inputs := rest, txpend := false })) ∧
    (s.txpend = false → step s = .next (State.record .txDone { s with inputs := rest }))

/-- 41_transfer.md R135: a tick in SEND counts down, and at zero completes with TXTIMEOUT, leaving `txpend` and the
role as they are. -/
def Obligations.TickDuringSend : Prop :=
  ∀ (rest : List Input) (s : State), s.inputs = .tick :: rest → s.phase = .send →
    (2 ≤ s.cnt.toNat → step s = .next (State.record .tick { s with inputs := rest, cnt := s.cnt - 1 })) ∧
    (s.cnt = 1 → step s = .next (State.record .tick
      { s with
        inputs := rest
        rcode := .txTimeout
        phase := .idle
        curop := 0
        cnt := 0
        intstat := s.intstat ||| 0x03 }))

/-- 10_state.md R40, R42 and 41_transfer.md R132, for the transport that keeps its duties: over a run with no `terr` and
no `reset`, the bytes handed over and the `tx_done` events differ only by the byte in flight at each end. -/
def Obligations.OneTxDonePerByte : Prop :=
  ∀ (n : Nat) (s t : State), Inv s → n ≤ s.inputs.length → dutiesKept n s →
    Input.terr ∉ s.inputs.take n → Input.reset ∉ s.inputs.take n → runSteps n s = .next t →
    (txBytesOf t.trace).length + s.txpend.toNat =
      (txBytesOf s.trace).length + (s.inputs.take n).count .txDone + t.txpend.toNat

/-- 10_state.md R40: a step hands over at most one byte, and after such a step the role is Transmit, the pin is the
peripheral's and the byte is in flight; the step started with no byte in flight or took the `tx_done` of the one
before. (R40's "only when `S.txpend = 0` before the step" holds only so: log entry 6.) -/
def Obligations.EmittedByteIsInFlight : Prop :=
  ∀ s t : State, Inv s → step s = .next t → txBytesOf t.trace ≠ txBytesOf s.trace →
    (∃ b, txBytesOf t.trace = txBytesOf s.trace ++ [b]) ∧
    t.role = .transmit ∧ t.pinmode = .periph ∧ t.txpend = true ∧
    (s.txpend = false ∨ ∃ rest, s.inputs = .txDone :: rest)

/-! ## Reception -/

/-- 41_transfer.md R143: an armed receive stores the byte at `rxraw`, restarts the timer, and stops with EOL at a LF
(also when the LF fills the buffer), with FULL when the last place is filled by another byte, and goes on otherwise.
A stop sets `rxlen` to the stripped length. -/
def Obligations.RxByteDuringRecv : Prop :=
  ∀ (b : Byte) (rest : List Input) (s : State), s.inputs = .rxByte b :: rest → s.phase = .recv →
    s.rxraw.toNat < s.rxmax.toNat → s.rxmax.toNat ≤ 128 →
    let buf := s.rxbuf.write s.rxraw.toNat b
    let stored : State :=
      { s with
        inputs := rest
        rxbuf := buf
        rxraw := s.rxraw + 1
        cnt := Config.pBtoUs }
    let stopped (r : ResultCode) : State :=
      { stored with
        rxlen := BitVec.ofNat 8 (strip buf (s.rxraw.toNat + 1))
        rcode := r
        phase := .idle
        curop := 0
        cnt := 0
        intstat := s.intstat ||| 0x01 }
    (b = 0x0A → step s = .next (State.record (.rxByte b) (stopped .eol))) ∧
    (b ≠ 0x0A → s.rxraw.toNat + 1 = s.rxmax.toNat →
      step s = .next (State.record (.rxByte b) (stopped .full))) ∧
    (b ≠ 0x0A → s.rxraw.toNat + 1 < s.rxmax.toNat → step s = .next (State.record (.rxByte b) stored))

/-- 41_transfer.md R141: `strip` leaves a length below which the last byte is neither CR nor LF and above which every
byte is one; no other length does both. -/
def Obligations.StripRemovesTrailingLineEnds : Prop :=
  ∀ (m : Memory) (n k : Nat),
    strip m n = k ↔
      k ≤ n ∧ (∀ j, k ≤ j → j < n → m.read j = 0x0D ∨ m.read j = 0x0A) ∧
      (0 < k → m.read (k - 1) ≠ 0x0D ∧ m.read (k - 1) ≠ 0x0A)

/-- 41_transfer.md R144: a tick in RECV counts down, and at zero stops with the stripped length, as NODEV when it is 0
and PARTIAL otherwise. -/
def Obligations.TickDuringRecv : Prop :=
  ∀ (rest : List Input) (s : State), s.inputs = .tick :: rest → s.phase = .recv →
    let len := strip s.rxbuf s.rxraw.toNat
    let timedOut (r : ResultCode) : State :=
      { s with
        inputs := rest
        rxlen := BitVec.ofNat 8 len
        rcode := r
        phase := .idle
        curop := 0
        cnt := 0
        intstat := s.intstat ||| 0x03 }
    (2 ≤ s.cnt.toNat → step s = .next (State.record .tick { s with inputs := rest, cnt := s.cnt - 1 })) ∧
    (s.cnt = 1 → len = 0 → step s = .next (State.record .tick (timedOut .noDev))) ∧
    (s.cnt = 1 → len ≠ 0 → step s = .next (State.record .tick (timedOut .partialLine)))

/-- 41_transfer.md R145: a byte that no armed receive takes is dropped and sets DROP; nothing else changes. -/
def Obligations.RxByteDropped : Prop :=
  ∀ (b : Byte) (rest : List Input) (s : State), s.inputs = .rxByte b :: rest → s.phase ≠ .recv →
    step s = .next (State.record (.rxByte b) { s with inputs := rest, intstat := s.intstat ||| 0x08 })

/-- 41_transfer.md R144 and R146(c), (d), (e), whatever else happens beside a received byte, `terr` and `reset`
(`tx_done`, host accesses): a receive with `cnt` ticks to go is still running until that many ticks have passed, and
ends at the last of them, NODEV when nothing but CR and LF was stored and PARTIAL otherwise. -/
def Obligations.SilentReceiveTimesOut : Prop :=
  ∀ (n : Nat) (s : State), s.phase = .recv → 1 ≤ s.cnt.toNat →
    Input.terr ∉ s.inputs.take n → Input.reset ∉ s.inputs.take n →
    (∀ b, Input.rxByte b ∉ s.inputs.take n) →
    let ticks := (s.inputs.take n).count .tick
    (ticks < s.cnt.toNat → ∃ t, runSteps n s = .next t ∧ t.phase = .recv ∧ t.rxraw = s.rxraw ∧
      t.rxbuf = s.rxbuf ∧ t.rcode = s.rcode ∧ t.cnt.toNat = s.cnt.toNat - ticks) ∧
    (ticks = s.cnt.toNat → (s.inputs.take n).getLast? = some .tick →
      ∃ t, runSteps n s = .next t ∧ t.phase = .idle ∧ t.rxraw = s.rxraw ∧ t.rxbuf = s.rxbuf ∧
        t.role = s.role ∧ t.inputs = s.inputs.drop n ∧
        t.intstat.getLsbD 0 = true ∧ t.intstat.getLsbD 1 = true ∧
        ((∀ i ∈ s.inputs.take n, i = .tick) → t.intstat = s.intstat ||| 0x03) ∧
        ((∀ j, j < s.rxraw.toNat → s.rxbuf.read j = 0x0D ∨ s.rxbuf.read j = 0x0A) →
          t.rcode = .noDev ∧ t.rxlen = 0) ∧
        (∀ j, j < s.rxraw.toNat → s.rxbuf.read j ≠ 0x0D → s.rxbuf.read j ≠ 0x0A →
          t.rcode = .partialLine ∧ j < t.rxlen.toNat))

/-- 40_wake_duplex.md R113(d) and 41_transfer.md R143, R145: outside reset, a step changes the receive buffer only when
an armed receive takes a byte, and then only the byte at `rxraw`. -/
def Obligations.RxbufWrittenOnlyByArmedReceive : Prop :=
  ∀ s t : State, Inv s → step s = .next t →
    (∃ rest, s.inputs = .reset :: rest) ∨ t.rxbuf = s.rxbuf ∨
    ∃ b rest, s.inputs = .rxByte b :: rest ∧ s.phase = .recv ∧
      t.rxbuf.read s.rxraw.toNat = b ∧ ∀ j, j ≠ s.rxraw.toNat → t.rxbuf.read j = s.rxbuf.read j

/-- 60_exceptions.md R214 and R207. When a byte and a tick come in one cycle, the byte is stored first: at the last tick
of the timer the receive goes on with the timer restarted and one tick taken off it. When the host writes ones to
INTSTAT in a cycle (to any offset of its word), a flag that the cycle's other inputs set (those that set it in the same
run with no flag pending before) stays set, any other flag is cleared by a one, and no other field changes. (How
`cycleInputs` presents that write is the model's: log entry 17.) -/
def Obligations.SameCycleInputs : Prop :=
  (∀ (b : Byte) (s : State), s.phase = .recv → s.cnt = 1 → s.rxraw.toNat + 1 < s.rxmax.toNat →
    s.rxmax.toNat ≤ 128 → b ≠ 0x0A →
    s.inputs = cycleInputs
      { reset := false, terr := false, rxByte := some b, txDone := false, tick := true, host := none } s →
    ∃ t, runSteps 2 s = .next t ∧ t.phase = .recv ∧ t.rxraw = s.rxraw + 1 ∧ t.cnt = Config.pBtoUs - 1 ∧
      t.rcode = s.rcode ∧ t.rxbuf = s.rxbuf.write s.rxraw.toNat b ∧ t.inputs = []) ∧
  (∀ (c : Cycle) (off : Offset) (v : Word) (rest : List Input) (s : State),
    c.host = some (.write off v) → off &&& 0xFFC = 0x028 → s.inputs = cycleInputs c s ++ rest →
    ∃ n before fresh t, n + 1 = (cycleInputs c s).length ∧ runSteps n s = .next before ∧
      runSteps n { s with intstat := 0 } = .next fresh ∧ runSteps (n + 1) s = .next t ∧
      t = { before with intstat := t.intstat, inputs := rest, trace := t.trace } ∧
      ∀ k, k < 5 → t.intstat.getLsbD k =
        (fresh.intstat.getLsbD k || (before.intstat.getLsbD k && !v.getLsbD k)))

/-! ## Results, interrupts, transport errors and reset -/

/-- 60_exceptions.md R203: `complete(code)` records the code, ends the command, sets DONE, and sets ERR exactly for the
error codes of R200; every other field and flag stays. -/
def Obligations.CompleteRecordsTheResult : Prop :=
  ∀ (c : ResultCode) (s : State),
    let isError := c = .noDev ∨ c = .partialLine ∨ c = .txTimeout ∨ c = .transport ∨ c = .crcMismatch ∨
      c = .malformed ∨ c = .illegal ∨ c = .badArg ∨ c = .role ∨ c = .txPend
    (isError → s.complete c =
      { s with rcode := c, phase := .idle, curop := 0, cnt := 0, intstat := s.intstat ||| 0x03 }) ∧
    (¬ isError → s.complete c =
      { s with rcode := c, phase := .idle, curop := 0, cnt := 0, intstat := s.intstat ||| 0x01 })

/-- 60_exceptions.md R210 and R211: a `terr` while busy ends the command with TRANSPORT, releases the pin, clears
`txpend` and keeps the received bytes with their stripped length; while idle it sets TERR and clears `txpend`. The
role is not changed. -/
def Obligations.TransportError : Prop :=
  ∀ (rest : List Input) (s : State), s.inputs = .terr :: rest →
    (s.phase ≠ .idle → step s = .next (State.record .terr
      { s with
        inputs := rest
        rxlen := if s.phase = .recv then BitVec.ofNat 8 (strip s.rxbuf s.rxraw.toNat) else s.rxlen
        level := .low
        pinmode := .periph
        txpend := false
        rcode := .transport
        phase := .idle
        curop := 0
        cnt := 0
        intstat := s.intstat ||| 0x03 })) ∧
    (s.phase = .idle → step s = .next (State.record .terr
      { s with inputs := rest, txpend := false, intstat := s.intstat ||| 0x10 }))

/-- 60_exceptions.md R206: `irq` is 1 exactly when some flag is pending and enabled, and the line shows it. -/
def Obligations.IrqIsEnabledPending : Prop :=
  ∀ s : State, s.lines.irq = s.irq ∧
    (s.irq = true ↔ ∃ k, k < 5 ∧ s.intstat.getLsbD k = true ∧ s.inten.getLsbD k = true)

/-- 70_reset_and_hazards.md R230 and R231: a reset in any state sets every field, every register then reads its reset
value of 20_memory.md R54, and `irq` is 0. The trace stays (R231). -/
def Obligations.ResetSetsEveryField : Prop :=
  ∀ (rest : List Input) (s : State), s.inputs = .reset :: rest →
    ∃ t, step s = .next t ∧
      t = State.record .reset
        { role := .receive, pinmode := .periph, level := .low, phase := .idle, curop := 0, cnt := 0,
          txn := 0, txidx := 0, txpend := false, rxmax := 0, rxraw := 0, rxlen := 0, rxbuf := [],
          txbuf := [], breakUs := 12000, markUs := 9000, crcinit := 0xFFFF, crcval := 0xFFFF, inten := 0,
          intstat := 0, rcode := .none, rop := 0, inputs := t.inputs, trace := s.trace } ∧
      t.lines = { pinMode := .periph, gpioLevel := .low, role := .receive, irq := false } ∧
      (∀ j, t.rxbuf.read j = 0x00 ∧ t.txbuf.read j = 0x00) ∧
      t.regValue 0x000 = 0x53500001 ∧ t.regValue 0x004 = 0 ∧ t.regValue 0x008 = 0 ∧ t.regValue 0x00C = 0 ∧
      t.regValue 0x010 = 0 ∧ t.regValue 0x014 = 0x23282EE0 ∧ t.regValue 0x018 = 0x0000FFFF ∧
      t.regValue 0x01C = 0x0000FFFF ∧ t.regValue 0x020 = 0 ∧ t.regValue 0x024 = 0 ∧ t.regValue 0x028 = 0 ∧
      t.regValue 0x030 = 0 ∧ t.regValue 0x034 = 0 ∧
      ∀ k, k < 32 → t.regValue (BitVec.ofNat 12 (0x100 + 4 * k)) = 0

/-! ## Checksum -/

/-- 42_checksum.md R170 and R179: the byte is XORed into the low byte and then exactly eight shift steps are made, each
with the polynomial 0xA001 when the bit shifted out is 1 (that bit is log entry 13's); and, "All arithmetic is in
GF(2)", the byte step is linear in the running value and the byte. -/
def Obligations.CrcByteIsEightShiftSteps : Prop :=
  (∀ (c : Half) (b : Byte),
    let shift (x : Half) : Half := if x.getLsbD 0 then (x >>> 1) ^^^ 0xA001 else x >>> 1
    crcByte c b = shift (shift (shift (shift (shift (shift (shift (shift (c ^^^ b.setWidth 16))))))))) ∧
  ∀ (c d : Half) (a b : Byte), crcByte (c ^^^ d) (a ^^^ b) = crcByte c a ^^^ crcByte d b

/-- 42_checksum.md R178 (which the spec derives): writing CRCVAL and then bytes to CRCIN leaves in `crcval` the fold of
`crc_byte` over them, with no stop at a CR, and completes no command. -/
def Obligations.StreamingPortFoldsBytes : Prop :=
  ∀ (v : Word) (vs : List Word) (rest : List Input) (s : State), s.phase = .idle →
    s.inputs = hostWrite 0x01C v :: (vs.map (hostWrite 0x020) ++ rest) →
    ∃ t, runSteps (1 + vs.length) s = .next t ∧
      t = { s with
        crcval := crcFold (v.extractLsb' 0 16) (vs.map fun w => w.extractLsb' 0 8)
        inputs := rest
        trace := t.trace } ∧
      txBytesOf t.trace = txBytesOf s.trace

/-- 42_checksum.md R175 (which the spec derives): the CRC command's value depends only on `crcinit`, `l` and the first
`l` bytes of the receive buffer: two states that agree on these give the same `crcval`. -/
def Obligations.CrcDependsOnlyOnItsInputs : Prop :=
  ∀ (l : BitVec 8) (s s' t t' : State), l.toNat ≤ 128 → s.crcinit = s'.crcinit →
    (∀ j, j < l.toNat → s.rxbuf.read j = s'.rxbuf.read j) →
    exec (.crc l) s = .next t → exec (.crc l) s' = .next t' → t.crcval = t'.crcval

/-- 42_checksum.md R172 (an encoding the spec takes from general knowledge, log entry 13): the three characters are
`0x40 | c[15:12]`, `0x40 | c[11:6]` and `0x40 | c[5:0]`, in this order; each lies in 0x40..0x7F; and different values
have different characters. -/
def Obligations.CodeCharactersCarryTheValue : Prop :=
  (∀ c : Half, enc3 c =
    (0x40 ||| (c.extractLsb' 12 4).setWidth 8, 0x40 ||| (c.extractLsb' 6 6).setWidth 8,
      0x40 ||| (c.extractLsb' 0 6).setWidth 8)) ∧
  (∀ c : Half, 0x40 ≤ (enc3 c).1.toNat ∧ (enc3 c).1.toNat ≤ 0x7F ∧
    0x40 ≤ (enc3 c).2.1.toNat ∧ (enc3 c).2.1.toNat ≤ 0x7F ∧
    0x40 ≤ (enc3 c).2.2.toNat ∧ (enc3 c).2.2.toNat ≤ 0x7F) ∧
  (∀ c d : Half, enc3 c = enc3 d → c = d)

/-! ## The whole machine -/

/-- 70_reset_and_hazards.md R230: the state after reset meets the invariant. -/
def Obligations.InvHoldsAtReset : Prop := Inv State.reset

/-- 10_state.md R26 (which the spec derives; clause (d) by log entry 5), with the buffers' canonical form: every step of
every state that meets the invariant keeps it. -/
def Obligations.StepKeepsInv : Prop := ∀ s t : State, Inv s → step s = .next t → Inv t

/-- 40_wake_duplex.md R114 (which the spec derives): the role changes only by a reset, a QUERY's end of marking, a
QUERY's last `tx_done`, or a DIR.TX or DIR.RX issued while idle. -/
def Obligations.RoleChangesOnlyInFourPlaces : Prop :=
  ∀ s t : State, step s = .next t → t.role ≠ s.role →
    ∃ rest, s.inputs = .reset :: rest ∨
      (s.inputs = .tick :: rest ∧ s.phase = .mark ∧ s.cnt = 1 ∧ s.curop = 0x08 ∧ t.role = .transmit) ∨
      (s.inputs = .txDone :: rest ∧ s.phase = .send ∧ s.curop = 0x08 ∧ s.txpend = true ∧
        s.txn.toNat ≤ s.txidx.toNat ∧ t.role = .receive) ∨
      (∃ off v, s.inputs = .host (.write off v) :: rest ∧ off &&& 0xFFC = 0x008 ∧ s.phase = .idle ∧
        (decode v = .command .dirTx ∧ t.role = .transmit ∨
          decode v = .command .dirRx ∧ s.txpend = false ∧ t.role = .receive))

/-- 20_memory.md R57 and R73: while a command runs, no step but a reset changes the transmit buffer, the durations, the
initial CRC value or the CRC value. -/
def Obligations.RunningCommandInputsAreStable : Prop :=
  ∀ s t : State, s.phase ≠ .idle → step s = .next t → (∀ rest, s.inputs ≠ .reset :: rest) →
    t.txbuf = s.txbuf ∧ t.breakUs = s.breakUs ∧ t.markUs = s.markUs ∧ t.crcinit = s.crcinit ∧
    t.crcval = s.crcval

/-- 70_reset_and_hazards.md R246 (which the spec derives): from every state that meets the invariant, a run whose next
`n` inputs hold at least `ticksLeft` ticks passes through an idle state, whatever the other inputs are. At a command's
start `ticksLeft` is the bound R246 gives it, in P_TTO_US and P_BTO_US. -/
def Obligations.EveryCommandEndsWithinItsBound : Prop :=
  (∀ (n : Nat) (s : State), Inv s → n ≤ s.inputs.length → ticksLeft s ≤ ticksAhead n s →
    ∃ k t, k ≤ n ∧ runSteps k s = .next t ∧ t.phase = .idle) ∧
  (∀ s t : State, exec .wake s = .next t → t.phase ≠ .idle →
    ticksLeft t = s.breakUs.toNat + s.markUs.toNat) ∧
  (∀ (n : BitVec 4) (s t : State), exec (.send n) s = .next t → t.phase ≠ .idle →
    ticksLeft t = Config.pTtoUs.toNat) ∧
  (∀ (l : BitVec 8) (s t : State), exec (.recv l) s = .next t → t.phase ≠ .idle →
    ticksLeft t = l.toNat * Config.pBtoUs.toNat) ∧
  (∀ (n : BitVec 4) (l : BitVec 8) (s t : State), exec (.query n l) s = .next t → t.phase ≠ .idle →
    ticksLeft t = s.breakUs.toNat + s.markUs.toNat + Config.pTtoUs.toNat + l.toNat * Config.pBtoUs.toNat)

/-- 10_state.md R26 (which the spec derives), "These invariants hold in every state a run reaches from reset", clause by
clause, over every list of inputs: (a) to (j) in their order. Clause (d) rests on the model's reading of a QUERY's issue
(log entry 5). -/
def Obligations.ReachableStatesMeetR26 : Prop :=
  ∀ (inputs : List Input) (n : Nat) (t : State),
    runSteps n { State.reset with inputs := inputs } = .next t →
    (t.phase = .idle ↔ t.curop = 0) ∧
    ((t.pinmode = .gpio ↔ t.phase = .brk) ∧ (t.level = .high ↔ t.phase = .brk)) ∧
    (t.phase ≠ .idle → 1 ≤ t.cnt.toNat) ∧
    (t.txidx.toNat ≤ t.txn.toNat ∧ t.txn.toNat ≤ 8) ∧
    (t.phase = .recv → t.role = .receive ∧ 1 ≤ t.rxmax.toNat ∧ t.rxmax.toNat ≤ 128 ∧
      t.rxraw.toNat < t.rxmax.toNat) ∧
    (t.phase = .send → t.role = .transmit) ∧
    (t.rxlen.toNat ≤ t.rxraw.toNat ∧ t.rxraw.toNat ≤ 128) ∧
    (12000 ≤ t.breakUs.toNat ∧ 8300 ≤ t.markUs.toNat) ∧
    (t.phase ≠ .idle → t.rcode = .none) ∧
    (t.role = .receive → t.txpend = false)
end

