-- ==== Sys2Proof/Laws/Memory.lean ====
section
/-! SUPPORT. Reading and writing a byte buffer: a read after a write, the canonical form kept, and the buffer
determined by what it reads as. -/

namespace Sys2Proof.Machine

@[simp] theorem Memory.read_nil (a : Nat) : Memory.read [] a = resetByte := rfl

theorem Memory.read_cons (k : Nat) (b : Byte) (m : Memory) (a : Nat) :
    Memory.read ((k, b) :: m) a = if k = a then b else Memory.read m a := rfl

theorem Memory.wfFrom_cons {lo size k : Nat} {b : Byte} {m : Memory} :
    Memory.wfFrom lo size ((k, b) :: m) = true ↔
      lo ≤ k ∧ k < size ∧ b ≠ resetByte ∧ Memory.wfFrom (k + 1) size m = true := by
  simp [Memory.wfFrom, and_assoc]

/-- A buffer with rising indexes from `lo` also rises from any smaller index. -/
theorem Memory.wfFrom_mono {lo lo' size : Nat} {m : Memory} (h : Memory.wfFrom lo size m = true)
    (hle : lo' ≤ lo) : Memory.wfFrom lo' size m = true := by
  cases m with
  | nil => rfl
  | cons c m =>
    obtain ⟨k, b⟩ := c
    rw [Memory.wfFrom_cons] at h ⊢
    exact ⟨by omega, h.2⟩

/-- Below its first index a buffer reads as unlisted. -/
theorem Memory.read_below {lo size : Nat} {m : Memory} (h : Memory.wfFrom lo size m = true) {a : Nat}
    (ha : a < lo) : m.read a = resetByte := by
  induction m generalizing lo with
  | nil => rfl
  | cons c m ih =>
    obtain ⟨k, b⟩ := c
    rw [Memory.wfFrom_cons] at h
    rw [Memory.read_cons, if_neg (by omega)]
    exact ih h.2.2.2 (by omega)

/-- Beyond its size a buffer reads as unlisted. -/
theorem Memory.read_beyond {lo size : Nat} {m : Memory} (h : Memory.wfFrom lo size m = true) {a : Nat}
    (ha : size ≤ a) : m.read a = resetByte := by
  induction m generalizing lo with
  | nil => rfl
  | cons c m ih =>
    obtain ⟨k, b⟩ := c
    rw [Memory.wfFrom_cons] at h
    rw [Memory.read_cons, if_neg (by omega)]
    exact ih h.2.2.2

theorem Memory.read_consCell (a : Nat) (b : Byte) (m : Memory) (x : Nat)
    (h : m.read a = resetByte) :
    Memory.read (Memory.consCell a b m) x = if x = a then b else m.read x := by
  unfold Memory.consCell
  by_cases hb : b = resetByte
  · by_cases hx : x = a
    · simp [hb, hx, h]
    · simp [hb, hx]
  · by_cases hx : x = a
    · simp [hb, hx, Memory.read_cons]
    · simp [hb, hx, Memory.read_cons, Ne.symm hx]

/-- Writing one byte of a canonical buffer: that byte reads as written, every other byte as before. -/
theorem Memory.read_write {lo size : Nat} {m : Memory} (h : Memory.wfFrom lo size m = true)
    (a : Nat) (b : Byte) (x : Nat) :
    (m.write a b).read x = if x = a then b else m.read x := by
  induction m generalizing lo with
  | nil => exact Memory.read_consCell a b [] x rfl
  | cons c m ih =>
    obtain ⟨k, v⟩ := c
    have hw := h
    rw [Memory.wfFrom_cons] at h
    simp only [Memory.write]
    split
    · rename_i hlt
      refine Memory.read_consCell a b _ x ?_
      rw [Memory.read_cons, if_neg (by omega)]
      exact Memory.read_below h.2.2.2 (by omega)
    · split
      · rename_i heq
        subst heq
        rw [Memory.read_consCell a b m x (Memory.read_below h.2.2.2 (by omega)), Memory.read_cons]
        by_cases hx : x = a
        · simp [hx]
        · simp [hx, Ne.symm hx]
      · rename_i hne
        rw [Memory.read_cons, ih h.2.2.2, Memory.read_cons]
        by_cases hx : k = x
        · subst hx
          simp [Ne.symm hne]
        · simp [hx]

theorem Memory.wfFrom_consCell {lo size a : Nat} {b : Byte} {m : Memory} (hlo : lo ≤ a) (ha : a < size)
    (h : Memory.wfFrom (a + 1) size m = true) :
    Memory.wfFrom lo size (Memory.consCell a b m) = true := by
  unfold Memory.consCell
  split
  · exact Memory.wfFrom_mono h (by omega)
  · rename_i hb
    exact Memory.wfFrom_cons.2 ⟨hlo, ha, hb, h⟩

theorem Memory.wfFrom_write {lo size : Nat} {m : Memory} (h : Memory.wfFrom lo size m = true)
    {a : Nat} (hlo : lo ≤ a) (ha : a < size) (b : Byte) :
    Memory.wfFrom lo size (m.write a b) = true := by
  induction m generalizing lo with
  | nil => exact Memory.wfFrom_consCell hlo ha rfl
  | cons c m ih =>
    obtain ⟨k, v⟩ := c
    rw [Memory.wfFrom_cons] at h
    simp only [Memory.write]
    split
    · rename_i hlt
      exact Memory.wfFrom_consCell hlo ha (Memory.wfFrom_cons.2 ⟨by omega, h.2⟩)
    · split
      · rename_i heq
        subst heq
        exact Memory.wfFrom_consCell hlo ha h.2.2.2
      · exact Memory.wfFrom_cons.2 ⟨h.1, h.2.1, h.2.2.1, ih h.2.2.2 (by omega)⟩

/-- A write inside the buffer keeps the canonical form. -/
theorem Memory.wf_write {size : Nat} {m : Memory} (h : m.wf size = true) {a : Nat} (ha : a < size)
    (b : Byte) : (m.write a b).wf size = true :=
  Memory.wfFrom_write h (Nat.zero_le a) ha b

/-- A word write inside the buffer keeps the canonical form. -/
theorem Memory.wf_writeWord {size : Nat} {m : Memory} (h : m.wf size = true) {a : Nat}
    (ha : a + 3 < size) (v : Word) : (m.writeWord a v).wf size = true := by
  unfold Memory.writeWord
  exact Memory.wf_write (Memory.wf_write (Memory.wf_write (Memory.wf_write h (by omega) _) (by omega) _)
    (by omega) _) (by omega) _

/-- A word write: the four bytes of the word at `a .. a + 3`, every other byte as before. -/
theorem Memory.read_writeWord {size : Nat} {m : Memory} (h : m.wf size = true) {a : Nat}
    (ha : a + 3 < size) (v : Word) (x : Nat) :
    (m.writeWord a v).read x =
      if x = a + 3 then v.extractLsb' 24 8 else if x = a + 2 then v.extractLsb' 16 8
      else if x = a + 1 then v.extractLsb' 8 8 else if x = a then v.extractLsb' 0 8 else m.read x := by
  have h0 := Memory.wf_write h (a := a) (by omega) (v.extractLsb' 0 8)
  have h1 := Memory.wf_write h0 (a := a + 1) (by omega) (v.extractLsb' 8 8)
  have h2 := Memory.wf_write h1 (a := a + 2) (by omega) (v.extractLsb' 16 8)
  unfold Memory.writeWord
  rw [Memory.read_write h2, Memory.read_write h1, Memory.read_write h0, Memory.read_write h]

/-- Two canonical buffers that read alike are equal. -/
theorem Memory.eq_of_read_eq {lo size : Nat} {m m' : Memory} (h : Memory.wfFrom lo size m = true)
    (h' : Memory.wfFrom lo size m' = true) (hr : ∀ a, m.read a = m'.read a) : m = m' := by
  induction m generalizing lo m' with
  | nil =>
    cases m' with
    | nil => rfl
    | cons c' m' =>
      obtain ⟨k', b'⟩ := c'
      rw [Memory.wfFrom_cons] at h'
      have := hr k'
      simp [Memory.read_cons] at this
      exact absurd this.symm h'.2.2.1
  | cons c m ih =>
    obtain ⟨k, b⟩ := c
    have hw := h
    rw [Memory.wfFrom_cons] at h
    cases m' with
    | nil =>
      have := hr k
      simp [Memory.read_cons] at this
      exact absurd this h.2.2.1
    | cons c' m' =>
      obtain ⟨k', b'⟩ := c'
      have hw' := h'
      rw [Memory.wfFrom_cons] at h'
      have hk : k = k' := by
        rcases Nat.lt_trichotomy k k' with hlt | heq | hgt
        · have := hr k
          rw [Memory.read_cons, if_pos rfl, Memory.read_cons, if_neg (by omega),
            Memory.read_below h'.2.2.2 (by omega)] at this
          exact absurd this h.2.2.1
        · exact heq
        · have := hr k'
          rw [Memory.read_cons, if_neg (by omega), Memory.read_below h.2.2.2 (by omega),
            Memory.read_cons, if_pos rfl] at this
          exact absurd this.symm h'.2.2.1
      subst hk
      have hb : b = b' := by
        have := hr k
        simpa [Memory.read_cons] using this
      subst hb
      have hm : m = m' := by
        refine ih h.2.2.2 h'.2.2.2 fun a => ?_
        rcases Nat.lt_or_ge k a with hlt | hge
        · have := hr a
          rwa [Memory.read_cons, if_neg (by omega), Memory.read_cons, if_neg (by omega)] at this
        · rw [Memory.read_below h.2.2.2 (by omega), Memory.read_below h'.2.2.2 (by omega)]
      rw [hm]

end Sys2Proof.Machine
end

