-- ==== Sys2Proof/Laws/State.lean ====
section
/-! SUPPORT. One lemma per field per shared update, true by definition, so that no proof unfolds a record update. -/

namespace Sys2Proof.Machine

section
variable (i : Input) (s : State)

@[simp] theorem record_role : (s.record i).role = s.role := rfl
@[simp] theorem record_pinmode : (s.record i).pinmode = s.pinmode := rfl
@[simp] theorem record_level : (s.record i).level = s.level := rfl
@[simp] theorem record_phase : (s.record i).phase = s.phase := rfl
@[simp] theorem record_curop : (s.record i).curop = s.curop := rfl
@[simp] theorem record_cnt : (s.record i).cnt = s.cnt := rfl
@[simp] theorem record_txn : (s.record i).txn = s.txn := rfl
@[simp] theorem record_txidx : (s.record i).txidx = s.txidx := rfl
@[simp] theorem record_txpend : (s.record i).txpend = s.txpend := rfl
@[simp] theorem record_rxmax : (s.record i).rxmax = s.rxmax := rfl
@[simp] theorem record_rxraw : (s.record i).rxraw = s.rxraw := rfl
@[simp] theorem record_rxlen : (s.record i).rxlen = s.rxlen := rfl
@[simp] theorem record_rxbuf : (s.record i).rxbuf = s.rxbuf := rfl
@[simp] theorem record_txbuf : (s.record i).txbuf = s.txbuf := rfl
@[simp] theorem record_breakUs : (s.record i).breakUs = s.breakUs := rfl
@[simp] theorem record_markUs : (s.record i).markUs = s.markUs := rfl
@[simp] theorem record_crcinit : (s.record i).crcinit = s.crcinit := rfl
@[simp] theorem record_crcval : (s.record i).crcval = s.crcval := rfl
@[simp] theorem record_inten : (s.record i).inten = s.inten := rfl
@[simp] theorem record_intstat : (s.record i).intstat = s.intstat := rfl
@[simp] theorem record_rcode : (s.record i).rcode = s.rcode := rfl
@[simp] theorem record_rop : (s.record i).rop = s.rop := rfl
@[simp] theorem record_inputs : (s.record i).inputs = s.inputs := rfl
@[simp] theorem record_trace : (s.record i).trace = .after i s.lines :: s.trace := rfl

end

section
variable (b : Byte) (s : State)

@[simp] theorem emit_role : (s.emit b).role = s.role := rfl
@[simp] theorem emit_pinmode : (s.emit b).pinmode = s.pinmode := rfl
@[simp] theorem emit_level : (s.emit b).level = s.level := rfl
@[simp] theorem emit_phase : (s.emit b).phase = s.phase := rfl
@[simp] theorem emit_curop : (s.emit b).curop = s.curop := rfl
@[simp] theorem emit_cnt : (s.emit b).cnt = s.cnt := rfl
@[simp] theorem emit_txn : (s.emit b).txn = s.txn := rfl
@[simp] theorem emit_txidx : (s.emit b).txidx = s.txidx := rfl
@[simp] theorem emit_txpend : (s.emit b).txpend = s.txpend := rfl
@[simp] theorem emit_rxmax : (s.emit b).rxmax = s.rxmax := rfl
@[simp] theorem emit_rxraw : (s.emit b).rxraw = s.rxraw := rfl
@[simp] theorem emit_rxlen : (s.emit b).rxlen = s.rxlen := rfl
@[simp] theorem emit_rxbuf : (s.emit b).rxbuf = s.rxbuf := rfl
@[simp] theorem emit_txbuf : (s.emit b).txbuf = s.txbuf := rfl
@[simp] theorem emit_breakUs : (s.emit b).breakUs = s.breakUs := rfl
@[simp] theorem emit_markUs : (s.emit b).markUs = s.markUs := rfl
@[simp] theorem emit_crcinit : (s.emit b).crcinit = s.crcinit := rfl
@[simp] theorem emit_crcval : (s.emit b).crcval = s.crcval := rfl
@[simp] theorem emit_inten : (s.emit b).inten = s.inten := rfl
@[simp] theorem emit_intstat : (s.emit b).intstat = s.intstat := rfl
@[simp] theorem emit_rcode : (s.emit b).rcode = s.rcode := rfl
@[simp] theorem emit_rop : (s.emit b).rop = s.rop := rfl
@[simp] theorem emit_inputs : (s.emit b).inputs = s.inputs := rfl
@[simp] theorem emit_trace : (s.emit b).trace = .txByte b :: s.trace := rfl

end

section
variable (off : Offset) (v : Word) (s : State)

@[simp] theorem answer_role : (s.answer off v).role = s.role := rfl
@[simp] theorem answer_pinmode : (s.answer off v).pinmode = s.pinmode := rfl
@[simp] theorem answer_level : (s.answer off v).level = s.level := rfl
@[simp] theorem answer_phase : (s.answer off v).phase = s.phase := rfl
@[simp] theorem answer_curop : (s.answer off v).curop = s.curop := rfl
@[simp] theorem answer_cnt : (s.answer off v).cnt = s.cnt := rfl
@[simp] theorem answer_txn : (s.answer off v).txn = s.txn := rfl
@[simp] theorem answer_txidx : (s.answer off v).txidx = s.txidx := rfl
@[simp] theorem answer_txpend : (s.answer off v).txpend = s.txpend := rfl
@[simp] theorem answer_rxmax : (s.answer off v).rxmax = s.rxmax := rfl
@[simp] theorem answer_rxraw : (s.answer off v).rxraw = s.rxraw := rfl
@[simp] theorem answer_rxlen : (s.answer off v).rxlen = s.rxlen := rfl
@[simp] theorem answer_rxbuf : (s.answer off v).rxbuf = s.rxbuf := rfl
@[simp] theorem answer_txbuf : (s.answer off v).txbuf = s.txbuf := rfl
@[simp] theorem answer_breakUs : (s.answer off v).breakUs = s.breakUs := rfl
@[simp] theorem answer_markUs : (s.answer off v).markUs = s.markUs := rfl
@[simp] theorem answer_crcinit : (s.answer off v).crcinit = s.crcinit := rfl
@[simp] theorem answer_crcval : (s.answer off v).crcval = s.crcval := rfl
@[simp] theorem answer_inten : (s.answer off v).inten = s.inten := rfl
@[simp] theorem answer_intstat : (s.answer off v).intstat = s.intstat := rfl
@[simp] theorem answer_rcode : (s.answer off v).rcode = s.rcode := rfl
@[simp] theorem answer_rop : (s.answer off v).rop = s.rop := rfl
@[simp] theorem answer_inputs : (s.answer off v).inputs = s.inputs := rfl
@[simp] theorem answer_trace : (s.answer off v).trace = .readData off v :: s.trace := rfl

end

section
variable (f : Flag) (s : State)

@[simp] theorem setFlag_role : (s.setFlag f).role = s.role := rfl
@[simp] theorem setFlag_pinmode : (s.setFlag f).pinmode = s.pinmode := rfl
@[simp] theorem setFlag_level : (s.setFlag f).level = s.level := rfl
@[simp] theorem setFlag_phase : (s.setFlag f).phase = s.phase := rfl
@[simp] theorem setFlag_curop : (s.setFlag f).curop = s.curop := rfl
@[simp] theorem setFlag_cnt : (s.setFlag f).cnt = s.cnt := rfl
@[simp] theorem setFlag_txn : (s.setFlag f).txn = s.txn := rfl
@[simp] theorem setFlag_txidx : (s.setFlag f).txidx = s.txidx := rfl
@[simp] theorem setFlag_txpend : (s.setFlag f).txpend = s.txpend := rfl
@[simp] theorem setFlag_rxmax : (s.setFlag f).rxmax = s.rxmax := rfl
@[simp] theorem setFlag_rxraw : (s.setFlag f).rxraw = s.rxraw := rfl
@[simp] theorem setFlag_rxlen : (s.setFlag f).rxlen = s.rxlen := rfl
@[simp] theorem setFlag_rxbuf : (s.setFlag f).rxbuf = s.rxbuf := rfl
@[simp] theorem setFlag_txbuf : (s.setFlag f).txbuf = s.txbuf := rfl
@[simp] theorem setFlag_breakUs : (s.setFlag f).breakUs = s.breakUs := rfl
@[simp] theorem setFlag_markUs : (s.setFlag f).markUs = s.markUs := rfl
@[simp] theorem setFlag_crcinit : (s.setFlag f).crcinit = s.crcinit := rfl
@[simp] theorem setFlag_crcval : (s.setFlag f).crcval = s.crcval := rfl
@[simp] theorem setFlag_inten : (s.setFlag f).inten = s.inten := rfl
@[simp] theorem setFlag_intstat : (s.setFlag f).intstat = s.intstat ||| f.mask := rfl
@[simp] theorem setFlag_rcode : (s.setFlag f).rcode = s.rcode := rfl
@[simp] theorem setFlag_rop : (s.setFlag f).rop = s.rop := rfl
@[simp] theorem setFlag_inputs : (s.setFlag f).inputs = s.inputs := rfl
@[simp] theorem setFlag_trace : (s.setFlag f).trace = s.trace := rfl

end

section
variable (op : BitVec 8) (s : State)

@[simp] theorem issued_role : (s.issued op).role = s.role := rfl
@[simp] theorem issued_pinmode : (s.issued op).pinmode = s.pinmode := rfl
@[simp] theorem issued_level : (s.issued op).level = s.level := rfl
@[simp] theorem issued_phase : (s.issued op).phase = s.phase := rfl
@[simp] theorem issued_curop : (s.issued op).curop = s.curop := rfl
@[simp] theorem issued_cnt : (s.issued op).cnt = s.cnt := rfl
@[simp] theorem issued_txn : (s.issued op).txn = s.txn := rfl
@[simp] theorem issued_txidx : (s.issued op).txidx = s.txidx := rfl
@[simp] theorem issued_txpend : (s.issued op).txpend = s.txpend := rfl
@[simp] theorem issued_rxmax : (s.issued op).rxmax = s.rxmax := rfl
@[simp] theorem issued_rxraw : (s.issued op).rxraw = s.rxraw := rfl
@[simp] theorem issued_rxlen : (s.issued op).rxlen = s.rxlen := rfl
@[simp] theorem issued_rxbuf : (s.issued op).rxbuf = s.rxbuf := rfl
@[simp] theorem issued_txbuf : (s.issued op).txbuf = s.txbuf := rfl
@[simp] theorem issued_breakUs : (s.issued op).breakUs = s.breakUs := rfl
@[simp] theorem issued_markUs : (s.issued op).markUs = s.markUs := rfl
@[simp] theorem issued_crcinit : (s.issued op).crcinit = s.crcinit := rfl
@[simp] theorem issued_crcval : (s.issued op).crcval = s.crcval := rfl
@[simp] theorem issued_inten : (s.issued op).inten = s.inten := rfl
@[simp] theorem issued_intstat : (s.issued op).intstat = s.intstat := rfl
@[simp] theorem issued_rcode : (s.issued op).rcode = .none := rfl
@[simp] theorem issued_rop : (s.issued op).rop = op := rfl
@[simp] theorem issued_inputs : (s.issued op).inputs = s.inputs := rfl
@[simp] theorem issued_trace : (s.issued op).trace = s.trace := rfl

end

section
variable (c : ResultCode) (s : State)

@[simp] theorem complete_role : (s.complete c).role = s.role := rfl
@[simp] theorem complete_pinmode : (s.complete c).pinmode = s.pinmode := rfl
@[simp] theorem complete_level : (s.complete c).level = s.level := rfl
@[simp] theorem complete_phase : (s.complete c).phase = .idle := rfl
@[simp] theorem complete_curop : (s.complete c).curop = 0 := rfl
@[simp] theorem complete_cnt : (s.complete c).cnt = 0 := rfl
@[simp] theorem complete_txn : (s.complete c).txn = s.txn := rfl
@[simp] theorem complete_txidx : (s.complete c).txidx = s.txidx := rfl
@[simp] theorem complete_txpend : (s.complete c).txpend = s.txpend := rfl
@[simp] theorem complete_rxmax : (s.complete c).rxmax = s.rxmax := rfl
@[simp] theorem complete_rxraw : (s.complete c).rxraw = s.rxraw := rfl
@[simp] theorem complete_rxlen : (s.complete c).rxlen = s.rxlen := rfl
@[simp] theorem complete_rxbuf : (s.complete c).rxbuf = s.rxbuf := rfl
@[simp] theorem complete_txbuf : (s.complete c).txbuf = s.txbuf := rfl
@[simp] theorem complete_breakUs : (s.complete c).breakUs = s.breakUs := rfl
@[simp] theorem complete_markUs : (s.complete c).markUs = s.markUs := rfl
@[simp] theorem complete_crcinit : (s.complete c).crcinit = s.crcinit := rfl
@[simp] theorem complete_crcval : (s.complete c).crcval = s.crcval := rfl
@[simp] theorem complete_inten : (s.complete c).inten = s.inten := rfl
@[simp] theorem complete_intstat : (s.complete c).intstat = s.intstat ||| completionFlags c := rfl
@[simp] theorem complete_rcode : (s.complete c).rcode = c := rfl
@[simp] theorem complete_rop : (s.complete c).rop = s.rop := rfl
@[simp] theorem complete_inputs : (s.complete c).inputs = s.inputs := rfl
@[simp] theorem complete_trace : (s.complete c).trace = s.trace := rfl

end

section
variable (s : State)

@[simp] theorem startBreak_role : (s.startBreak).role = s.role := rfl
@[simp] theorem startBreak_pinmode : (s.startBreak).pinmode = .gpio := rfl
@[simp] theorem startBreak_level : (s.startBreak).level = .high := rfl
@[simp] theorem startBreak_phase : (s.startBreak).phase = .brk := rfl
@[simp] theorem startBreak_curop : (s.startBreak).curop = s.curop := rfl
@[simp] theorem startBreak_cnt : (s.startBreak).cnt = s.breakUs.setWidth 32 := rfl
@[simp] theorem startBreak_txn : (s.startBreak).txn = s.txn := rfl
@[simp] theorem startBreak_txidx : (s.startBreak).txidx = s.txidx := rfl
@[simp] theorem startBreak_txpend : (s.startBreak).txpend = s.txpend := rfl
@[simp] theorem startBreak_rxmax : (s.startBreak).rxmax = s.rxmax := rfl
@[simp] theorem startBreak_rxraw : (s.startBreak).rxraw = s.rxraw := rfl
@[simp] theorem startBreak_rxlen : (s.startBreak).rxlen = s.rxlen := rfl
@[simp] theorem startBreak_rxbuf : (s.startBreak).rxbuf = s.rxbuf := rfl
@[simp] theorem startBreak_txbuf : (s.startBreak).txbuf = s.txbuf := rfl
@[simp] theorem startBreak_breakUs : (s.startBreak).breakUs = s.breakUs := rfl
@[simp] theorem startBreak_markUs : (s.startBreak).markUs = s.markUs := rfl
@[simp] theorem startBreak_crcinit : (s.startBreak).crcinit = s.crcinit := rfl
@[simp] theorem startBreak_crcval : (s.startBreak).crcval = s.crcval := rfl
@[simp] theorem startBreak_inten : (s.startBreak).inten = s.inten := rfl
@[simp] theorem startBreak_intstat : (s.startBreak).intstat = s.intstat := rfl
@[simp] theorem startBreak_rcode : (s.startBreak).rcode = s.rcode := rfl
@[simp] theorem startBreak_rop : (s.startBreak).rop = s.rop := rfl
@[simp] theorem startBreak_inputs : (s.startBreak).inputs = s.inputs := rfl
@[simp] theorem startBreak_trace : (s.startBreak).trace = s.trace := rfl

end

section
variable (s : State)

@[simp] theorem endBreak_role : (s.endBreak).role = s.role := rfl
@[simp] theorem endBreak_pinmode : (s.endBreak).pinmode = .periph := rfl
@[simp] theorem endBreak_level : (s.endBreak).level = .low := rfl
@[simp] theorem endBreak_phase : (s.endBreak).phase = .mark := rfl
@[simp] theorem endBreak_curop : (s.endBreak).curop = s.curop := rfl
@[simp] theorem endBreak_cnt : (s.endBreak).cnt = s.markUs.setWidth 32 := rfl
@[simp] theorem endBreak_txn : (s.endBreak).txn = s.txn := rfl
@[simp] theorem endBreak_txidx : (s.endBreak).txidx = s.txidx := rfl
@[simp] theorem endBreak_txpend : (s.endBreak).txpend = s.txpend := rfl
@[simp] theorem endBreak_rxmax : (s.endBreak).rxmax = s.rxmax := rfl
@[simp] theorem endBreak_rxraw : (s.endBreak).rxraw = s.rxraw := rfl
@[simp] theorem endBreak_rxlen : (s.endBreak).rxlen = s.rxlen := rfl
@[simp] theorem endBreak_rxbuf : (s.endBreak).rxbuf = s.rxbuf := rfl
@[simp] theorem endBreak_txbuf : (s.endBreak).txbuf = s.txbuf := rfl
@[simp] theorem endBreak_breakUs : (s.endBreak).breakUs = s.breakUs := rfl
@[simp] theorem endBreak_markUs : (s.endBreak).markUs = s.markUs := rfl
@[simp] theorem endBreak_crcinit : (s.endBreak).crcinit = s.crcinit := rfl
@[simp] theorem endBreak_crcval : (s.endBreak).crcval = s.crcval := rfl
@[simp] theorem endBreak_inten : (s.endBreak).inten = s.inten := rfl
@[simp] theorem endBreak_intstat : (s.endBreak).intstat = s.intstat := rfl
@[simp] theorem endBreak_rcode : (s.endBreak).rcode = s.rcode := rfl
@[simp] theorem endBreak_rop : (s.endBreak).rop = s.rop := rfl
@[simp] theorem endBreak_inputs : (s.endBreak).inputs = s.inputs := rfl
@[simp] theorem endBreak_trace : (s.endBreak).trace = s.trace := rfl

end

section
variable (n : BitVec 4) (s : State)

@[simp] theorem startSend_role : (s.startSend n).role = s.role := rfl
@[simp] theorem startSend_pinmode : (s.startSend n).pinmode = s.pinmode := rfl
@[simp] theorem startSend_level : (s.startSend n).level = s.level := rfl
@[simp] theorem startSend_phase : (s.startSend n).phase = .send := rfl
@[simp] theorem startSend_curop : (s.startSend n).curop = s.curop := rfl
@[simp] theorem startSend_cnt : (s.startSend n).cnt = Config.pTtoUs := rfl
@[simp] theorem startSend_txn : (s.startSend n).txn = n := rfl
@[simp] theorem startSend_txidx : (s.startSend n).txidx = 1 := rfl
@[simp] theorem startSend_txpend : (s.startSend n).txpend = true := rfl
@[simp] theorem startSend_rxmax : (s.startSend n).rxmax = s.rxmax := rfl
@[simp] theorem startSend_rxraw : (s.startSend n).rxraw = s.rxraw := rfl
@[simp] theorem startSend_rxlen : (s.startSend n).rxlen = s.rxlen := rfl
@[simp] theorem startSend_rxbuf : (s.startSend n).rxbuf = s.rxbuf := rfl
@[simp] theorem startSend_txbuf : (s.startSend n).txbuf = s.txbuf := rfl
@[simp] theorem startSend_breakUs : (s.startSend n).breakUs = s.breakUs := rfl
@[simp] theorem startSend_markUs : (s.startSend n).markUs = s.markUs := rfl
@[simp] theorem startSend_crcinit : (s.startSend n).crcinit = s.crcinit := rfl
@[simp] theorem startSend_crcval : (s.startSend n).crcval = s.crcval := rfl
@[simp] theorem startSend_inten : (s.startSend n).inten = s.inten := rfl
@[simp] theorem startSend_intstat : (s.startSend n).intstat = s.intstat := rfl
@[simp] theorem startSend_rcode : (s.startSend n).rcode = s.rcode := rfl
@[simp] theorem startSend_rop : (s.startSend n).rop = s.rop := rfl
@[simp] theorem startSend_inputs : (s.startSend n).inputs = s.inputs := rfl
@[simp] theorem startSend_trace : (s.startSend n).trace = .txByte (s.txbuf.read 0) :: s.trace := rfl

end

section
variable (s : State)

@[simp] theorem sendNext_role : (s.sendNext).role = s.role := rfl
@[simp] theorem sendNext_pinmode : (s.sendNext).pinmode = s.pinmode := rfl
@[simp] theorem sendNext_level : (s.sendNext).level = s.level := rfl
@[simp] theorem sendNext_phase : (s.sendNext).phase = s.phase := rfl
@[simp] theorem sendNext_curop : (s.sendNext).curop = s.curop := rfl
@[simp] theorem sendNext_cnt : (s.sendNext).cnt = s.cnt := rfl
@[simp] theorem sendNext_txn : (s.sendNext).txn = s.txn := rfl
@[simp] theorem sendNext_txidx : (s.sendNext).txidx = s.txidx + 1 := rfl
@[simp] theorem sendNext_txpend : (s.sendNext).txpend = true := rfl
@[simp] theorem sendNext_rxmax : (s.sendNext).rxmax = s.rxmax := rfl
@[simp] theorem sendNext_rxraw : (s.sendNext).rxraw = s.rxraw := rfl
@[simp] theorem sendNext_rxlen : (s.sendNext).rxlen = s.rxlen := rfl
@[simp] theorem sendNext_rxbuf : (s.sendNext).rxbuf = s.rxbuf := rfl
@[simp] theorem sendNext_txbuf : (s.sendNext).txbuf = s.txbuf := rfl
@[simp] theorem sendNext_breakUs : (s.sendNext).breakUs = s.breakUs := rfl
@[simp] theorem sendNext_markUs : (s.sendNext).markUs = s.markUs := rfl
@[simp] theorem sendNext_crcinit : (s.sendNext).crcinit = s.crcinit := rfl
@[simp] theorem sendNext_crcval : (s.sendNext).crcval = s.crcval := rfl
@[simp] theorem sendNext_inten : (s.sendNext).inten = s.inten := rfl
@[simp] theorem sendNext_intstat : (s.sendNext).intstat = s.intstat := rfl
@[simp] theorem sendNext_rcode : (s.sendNext).rcode = s.rcode := rfl
@[simp] theorem sendNext_rop : (s.sendNext).rop = s.rop := rfl
@[simp] theorem sendNext_inputs : (s.sendNext).inputs = s.inputs := rfl
@[simp] theorem sendNext_trace : (s.sendNext).trace = .txByte (s.txbuf.read s.txidx.toNat) :: s.trace := rfl

end

section
variable (l : BitVec 8) (s : State)

@[simp] theorem startRecv_role : (s.startRecv l).role = s.role := rfl
@[simp] theorem startRecv_pinmode : (s.startRecv l).pinmode = s.pinmode := rfl
@[simp] theorem startRecv_level : (s.startRecv l).level = s.level := rfl
@[simp] theorem startRecv_phase : (s.startRecv l).phase = .recv := rfl
@[simp] theorem startRecv_curop : (s.startRecv l).curop = s.curop := rfl
@[simp] theorem startRecv_cnt : (s.startRecv l).cnt = Config.pBtoUs := rfl
@[simp] theorem startRecv_txn : (s.startRecv l).txn = s.txn := rfl
@[simp] theorem startRecv_txidx : (s.startRecv l).txidx = s.txidx := rfl
@[simp] theorem startRecv_txpend : (s.startRecv l).txpend = s.txpend := rfl
@[simp] theorem startRecv_rxmax : (s.startRecv l).rxmax = l := rfl
@[simp] theorem startRecv_rxraw : (s.startRecv l).rxraw = 0 := rfl
@[simp] theorem startRecv_rxlen : (s.startRecv l).rxlen = 0 := rfl
@[simp] theorem startRecv_rxbuf : (s.startRecv l).rxbuf = s.rxbuf := rfl
@[simp] theorem startRecv_txbuf : (s.startRecv l).txbuf = s.txbuf := rfl
@[simp] theorem startRecv_breakUs : (s.startRecv l).breakUs = s.breakUs := rfl
@[simp] theorem startRecv_markUs : (s.startRecv l).markUs = s.markUs := rfl
@[simp] theorem startRecv_crcinit : (s.startRecv l).crcinit = s.crcinit := rfl
@[simp] theorem startRecv_crcval : (s.startRecv l).crcval = s.crcval := rfl
@[simp] theorem startRecv_inten : (s.startRecv l).inten = s.inten := rfl
@[simp] theorem startRecv_intstat : (s.startRecv l).intstat = s.intstat := rfl
@[simp] theorem startRecv_rcode : (s.startRecv l).rcode = s.rcode := rfl
@[simp] theorem startRecv_rop : (s.startRecv l).rop = s.rop := rfl
@[simp] theorem startRecv_inputs : (s.startRecv l).inputs = s.inputs := rfl
@[simp] theorem startRecv_trace : (s.startRecv l).trace = s.trace := rfl

end

section
variable (s : State)

@[simp] theorem stripLine_role : (s.stripLine).role = s.role := rfl
@[simp] theorem stripLine_pinmode : (s.stripLine).pinmode = s.pinmode := rfl
@[simp] theorem stripLine_level : (s.stripLine).level = s.level := rfl
@[simp] theorem stripLine_phase : (s.stripLine).phase = s.phase := rfl
@[simp] theorem stripLine_curop : (s.stripLine).curop = s.curop := rfl
@[simp] theorem stripLine_cnt : (s.stripLine).cnt = s.cnt := rfl
@[simp] theorem stripLine_txn : (s.stripLine).txn = s.txn := rfl
@[simp] theorem stripLine_txidx : (s.stripLine).txidx = s.txidx := rfl
@[simp] theorem stripLine_txpend : (s.stripLine).txpend = s.txpend := rfl
@[simp] theorem stripLine_rxmax : (s.stripLine).rxmax = s.rxmax := rfl
@[simp] theorem stripLine_rxraw : (s.stripLine).rxraw = s.rxraw := rfl
@[simp] theorem stripLine_rxlen : (s.stripLine).rxlen = BitVec.ofNat 8 (strip s.rxbuf s.rxraw.toNat) := rfl
@[simp] theorem stripLine_rxbuf : (s.stripLine).rxbuf = s.rxbuf := rfl
@[simp] theorem stripLine_txbuf : (s.stripLine).txbuf = s.txbuf := rfl
@[simp] theorem stripLine_breakUs : (s.stripLine).breakUs = s.breakUs := rfl
@[simp] theorem stripLine_markUs : (s.stripLine).markUs = s.markUs := rfl
@[simp] theorem stripLine_crcinit : (s.stripLine).crcinit = s.crcinit := rfl
@[simp] theorem stripLine_crcval : (s.stripLine).crcval = s.crcval := rfl
@[simp] theorem stripLine_inten : (s.stripLine).inten = s.inten := rfl
@[simp] theorem stripLine_intstat : (s.stripLine).intstat = s.intstat := rfl
@[simp] theorem stripLine_rcode : (s.stripLine).rcode = s.rcode := rfl
@[simp] theorem stripLine_rop : (s.stripLine).rop = s.rop := rfl
@[simp] theorem stripLine_inputs : (s.stripLine).inputs = s.inputs := rfl
@[simp] theorem stripLine_trace : (s.stripLine).trace = s.trace := rfl

end

section
variable (b : Byte) (s : State)

@[simp] theorem storeByte_role : (s.storeByte b).role = s.role := rfl
@[simp] theorem storeByte_pinmode : (s.storeByte b).pinmode = s.pinmode := rfl
@[simp] theorem storeByte_level : (s.storeByte b).level = s.level := rfl
@[simp] theorem storeByte_phase : (s.storeByte b).phase = s.phase := rfl
@[simp] theorem storeByte_curop : (s.storeByte b).curop = s.curop := rfl
@[simp] theorem storeByte_cnt : (s.storeByte b).cnt = Config.pBtoUs := rfl
@[simp] theorem storeByte_txn : (s.storeByte b).txn = s.txn := rfl
@[simp] theorem storeByte_txidx : (s.storeByte b).txidx = s.txidx := rfl
@[simp] theorem storeByte_txpend : (s.storeByte b).txpend = s.txpend := rfl
@[simp] theorem storeByte_rxmax : (s.storeByte b).rxmax = s.rxmax := rfl
@[simp] theorem storeByte_rxraw : (s.storeByte b).rxraw = s.rxraw + 1 := rfl
@[simp] theorem storeByte_rxlen : (s.storeByte b).rxlen = s.rxlen := rfl
@[simp] theorem storeByte_rxbuf : (s.storeByte b).rxbuf =
    if s.rxraw.toNat < Config.rxCap then s.rxbuf.write s.rxraw.toNat b else s.rxbuf := rfl
@[simp] theorem storeByte_txbuf : (s.storeByte b).txbuf = s.txbuf := rfl
@[simp] theorem storeByte_breakUs : (s.storeByte b).breakUs = s.breakUs := rfl
@[simp] theorem storeByte_markUs : (s.storeByte b).markUs = s.markUs := rfl
@[simp] theorem storeByte_crcinit : (s.storeByte b).crcinit = s.crcinit := rfl
@[simp] theorem storeByte_crcval : (s.storeByte b).crcval = s.crcval := rfl
@[simp] theorem storeByte_inten : (s.storeByte b).inten = s.inten := rfl
@[simp] theorem storeByte_intstat : (s.storeByte b).intstat = s.intstat := rfl
@[simp] theorem storeByte_rcode : (s.storeByte b).rcode = s.rcode := rfl
@[simp] theorem storeByte_rop : (s.storeByte b).rop = s.rop := rfl
@[simp] theorem storeByte_inputs : (s.storeByte b).inputs = s.inputs := rfl
@[simp] theorem storeByte_trace : (s.storeByte b).trace = s.trace := rfl

end

section
variable (s : State)

@[simp] theorem countDown_role : (s.countDown).role = s.role := rfl
@[simp] theorem countDown_pinmode : (s.countDown).pinmode = s.pinmode := rfl
@[simp] theorem countDown_level : (s.countDown).level = s.level := rfl
@[simp] theorem countDown_phase : (s.countDown).phase = s.phase := rfl
@[simp] theorem countDown_curop : (s.countDown).curop = s.curop := rfl
@[simp] theorem countDown_cnt : (s.countDown).cnt = s.cnt - 1 := rfl
@[simp] theorem countDown_txn : (s.countDown).txn = s.txn := rfl
@[simp] theorem countDown_txidx : (s.countDown).txidx = s.txidx := rfl
@[simp] theorem countDown_txpend : (s.countDown).txpend = s.txpend := rfl
@[simp] theorem countDown_rxmax : (s.countDown).rxmax = s.rxmax := rfl
@[simp] theorem countDown_rxraw : (s.countDown).rxraw = s.rxraw := rfl
@[simp] theorem countDown_rxlen : (s.countDown).rxlen = s.rxlen := rfl
@[simp] theorem countDown_rxbuf : (s.countDown).rxbuf = s.rxbuf := rfl
@[simp] theorem countDown_txbuf : (s.countDown).txbuf = s.txbuf := rfl
@[simp] theorem countDown_breakUs : (s.countDown).breakUs = s.breakUs := rfl
@[simp] theorem countDown_markUs : (s.countDown).markUs = s.markUs := rfl
@[simp] theorem countDown_crcinit : (s.countDown).crcinit = s.crcinit := rfl
@[simp] theorem countDown_crcval : (s.countDown).crcval = s.crcval := rfl
@[simp] theorem countDown_inten : (s.countDown).inten = s.inten := rfl
@[simp] theorem countDown_intstat : (s.countDown).intstat = s.intstat := rfl
@[simp] theorem countDown_rcode : (s.countDown).rcode = s.rcode := rfl
@[simp] theorem countDown_rop : (s.countDown).rop = s.rop := rfl
@[simp] theorem countDown_inputs : (s.countDown).inputs = s.inputs := rfl
@[simp] theorem countDown_trace : (s.countDown).trace = s.trace := rfl

end

section
variable (s : State)

@[simp] theorem releaseLine_role : (s.releaseLine).role = s.role := rfl
@[simp] theorem releaseLine_pinmode : (s.releaseLine).pinmode = .periph := rfl
@[simp] theorem releaseLine_level : (s.releaseLine).level = .low := rfl
@[simp] theorem releaseLine_phase : (s.releaseLine).phase = s.phase := rfl
@[simp] theorem releaseLine_curop : (s.releaseLine).curop = s.curop := rfl
@[simp] theorem releaseLine_cnt : (s.releaseLine).cnt = s.cnt := rfl
@[simp] theorem releaseLine_txn : (s.releaseLine).txn = s.txn := rfl
@[simp] theorem releaseLine_txidx : (s.releaseLine).txidx = s.txidx := rfl
@[simp] theorem releaseLine_txpend : (s.releaseLine).txpend = false := rfl
@[simp] theorem releaseLine_rxmax : (s.releaseLine).rxmax = s.rxmax := rfl
@[simp] theorem releaseLine_rxraw : (s.releaseLine).rxraw = s.rxraw := rfl
@[simp] theorem releaseLine_rxlen : (s.releaseLine).rxlen = s.rxlen := rfl
@[simp] theorem releaseLine_rxbuf : (s.releaseLine).rxbuf = s.rxbuf := rfl
@[simp] theorem releaseLine_txbuf : (s.releaseLine).txbuf = s.txbuf := rfl
@[simp] theorem releaseLine_breakUs : (s.releaseLine).breakUs = s.breakUs := rfl
@[simp] theorem releaseLine_markUs : (s.releaseLine).markUs = s.markUs := rfl
@[simp] theorem releaseLine_crcinit : (s.releaseLine).crcinit = s.crcinit := rfl
@[simp] theorem releaseLine_crcval : (s.releaseLine).crcval = s.crcval := rfl
@[simp] theorem releaseLine_inten : (s.releaseLine).inten = s.inten := rfl
@[simp] theorem releaseLine_intstat : (s.releaseLine).intstat = s.intstat := rfl
@[simp] theorem releaseLine_rcode : (s.releaseLine).rcode = s.rcode := rfl
@[simp] theorem releaseLine_rop : (s.releaseLine).rop = s.rop := rfl
@[simp] theorem releaseLine_inputs : (s.releaseLine).inputs = s.inputs := rfl
@[simp] theorem releaseLine_trace : (s.releaseLine).trace = s.trace := rfl

end

end Sys2Proof.Machine
end

