-- ==== Sys2Proof/Laws/Ops.lean ====
section
/-! SUPPORT. What each shared operation can do, said once. -/

namespace Sys2Proof.Machine

@[simp] theorem busy_eq_true (s : State) : s.busy = true ↔ s.phase ≠ .idle := by simp [State.busy]

@[simp] theorem busy_eq_false (s : State) : s.busy = false ↔ s.phase = .idle := by simp [State.busy]

theorem nInRange_iff (n : BitVec 4) : nInRange n = true ↔ 1 ≤ n.toNat ∧ n.toNat ≤ 8 := by
  simp [nInRange]

theorem lInRange_iff (l : BitVec 8) : lInRange l = true ↔ 1 ≤ l.toNat ∧ l.toNat ≤ 128 := by
  simp [lInRange]

theorem scanInRange_iff (l : BitVec 8) : scanInRange l = true ↔ l.toNat ≤ 128 := by
  simp [scanInRange]

/-- The checks of the machine are the ranges of WellFormed.lean. -/
theorem nInRange_eq (n : BitVec 4) : nInRange n = txCountOk n := rfl

theorem lInRange_eq (l : BitVec 8) : lInRange l = maxLenOk l := rfl

theorem scanInRange_eq (l : BitVec 8) : scanInRange l = scanLenOk l := rfl

/-- The bytes `strip` removes (41_transfer.md R141). -/
theorem isLineEnd_iff (b : Byte) : isLineEnd b = true ↔ b = 0x0D ∨ b = 0x0A := by
  simp [isLineEnd]

/-- A counter above 1 is not at zero after one tick. -/
theorem countDown_ne_zero {c : Word} (h : 2 ≤ c.toNat) : c - 1 ≠ 0 := by
  intro hc
  have := congrArg BitVec.toNat hc
  have := c.isLt
  simp [BitVec.toNat_sub] at *
  omega

/-- `strip` never lengthens. -/
theorem strip_le (m : Memory) (n : Nat) : strip m n ≤ n := by
  induction n with
  | zero => exact Nat.le_refl 0
  | succ k ih =>
    simp only [strip]
    split
    · omega
    · exact Nat.le_refl _

theorem crcScanFrom_eq_fold (m : Memory) (k j : Nat) (c : Half) :
    crcScanFrom m j k c = crcFold c (((List.range' j k).map m.read).takeWhile (· != Config.cr)) := by
  induction k generalizing j c with
  | zero => rfl
  | succ k ih =>
    simp only [crcScanFrom, List.range'_succ, List.map_cons, List.takeWhile_cons]
    by_cases h : m.read j = Config.cr
    · rw [if_pos h, h]
      rfl
    · rw [if_neg h, ih, if_pos (bne_iff_ne.2 h)]
      rfl

/-- The scan folds the bytes before the first CR, at most `lim` of them (42_checksum.md R171). -/
theorem crcScan_eq_fold (m : Memory) (c : Half) (lim : Nat) :
    crcScan m c lim = crcFold c (((List.range lim).map m.read).takeWhile (· != Config.cr)) := by
  rw [List.range_eq_range']
  exact crcScanFrom_eq_fold m lim 0 c

/-- A stripped length fits the 8 bits of `rxlen`. -/
theorem stripLine_rxlen_toNat (s : State) : s.stripLine.rxlen.toNat = strip s.rxbuf s.rxraw.toNat := by
  have h := strip_le s.rxbuf s.rxraw.toNat
  have hb := s.rxraw.isLt
  simp only [stripLine_rxlen, BitVec.toNat_ofNat]
  omega

/-- Storing a received byte keeps the receive buffer's canonical form. -/
theorem storeByte_rxbuf_wf {s : State} (h : s.rxbuf.wf Config.rxCap = true) (b : Byte) :
    (s.storeByte b).rxbuf.wf Config.rxCap = true := by
  rw [storeByte_rxbuf]
  split
  · rename_i hlt
    exact Memory.wf_write h hlt b
  · exact h

/-- At the end of marking: the WAKE completes, the QUERY goes on, and nothing else is in phase MARK. -/
theorem endMark_cases (s : State) :
    (s.curop = 0x01 ∧ s.endMark = s.complete .ok) ∨ (s.curop = 0x08 ∧ s.endMark = s.queryAfterMark) ∨
      (s.curop ≠ 0x01 ∧ s.curop ≠ 0x08 ∧ s.endMark = s) := by
  unfold State.endMark
  split
  · rename_i h
    exact .inl ⟨h, rfl⟩
  · rename_i h1
    split
    · rename_i h
      exact .inr (.inl ⟨h, rfl⟩)
    · rename_i h8
      exact .inr (.inr ⟨h1, h8, rfl⟩)

/-- At the last byte's `tx_done`: the SEND completes, the QUERY turns around, and nothing else is in phase SEND. -/
theorem endSend_cases (s : State) :
    (s.curop = 0x04 ∧ s.endSend = s.complete .ok) ∨ (s.curop = 0x08 ∧ s.endSend = s.turnaround) ∨
      (s.curop ≠ 0x04 ∧ s.curop ≠ 0x08 ∧ s.endSend = s) := by
  unfold State.endSend
  split
  · rename_i h
    exact .inl ⟨h, rfl⟩
  · rename_i h4
    split
    · rename_i h
      exact .inr (.inl ⟨h, rfl⟩)
    · rename_i h8
      exact .inr (.inr ⟨h4, h8, rfl⟩)

/-- A locked write is the write while idle, and only sets OVR while busy. -/
theorem whenIdle_cases (f : State → State) (s : State) :
    (s.phase = .idle ∧ whenIdle f s = f s) ∨ (s.phase ≠ .idle ∧ whenIdle f s = s.setFlag .ovr) := by
  unfold whenIdle
  by_cases h : s.phase = .idle
  · exact .inl ⟨h, by simp [State.busy, h]⟩
  · exact .inr ⟨h, by simp [State.busy, h]⟩

/-- A CMD write is issued while idle, and only sets OVR while busy. -/
theorem writeCmd_cases (v : Word) (s : State) :
    (s.phase = .idle ∧ writeCmd v s = issue v s) ∨
      (s.phase ≠ .idle ∧ writeCmd v s = .next (s.setFlag .ovr)) := by
  unfold writeCmd
  by_cases h : s.phase = .idle
  · exact .inl ⟨h, by simp [State.busy, h]⟩
  · exact .inr ⟨h, by simp [State.busy, h]⟩

end Sys2Proof.Machine
end

