-- ==== Sys2Proof/Laws/PerInstr.lean ====
section
/-! SUPPORT. Facts stated per instruction: the low byte of an encoded command is its opcode, which is one of the
map (30_encoding.md R81, R83). -/

namespace Sys2Proof.Laws.OpcodeByte

/-- The word of `i` has its opcode in the low byte, one of 0x01..0x08. -/
def Statement (i : Instr) : Prop :=
  opField (encode i) = i.opcode ∧ 1 ≤ i.opcode.toNat ∧ i.opcode.toNat ≤ 8

theorem opField_of_shifts (op : BitVec 8) (n : BitVec 4) (l : BitVec 8) :
    opField (op.setWidth 32 ||| (n.setWidth 32 <<< 8) ||| (l.setWidth 32 <<< 16)) = op := by
  unfold opField
  ext k hk
  have h8 : k < 8 := by omega
  have h16 : k < 16 := by omega
  simp [h8, h16, BitVec.getLsbD_eq_getElem]
  omega

theorem of_opcode (i : Instr) (op : BitVec 8) (h : i.opcode = op) (hop : 1 ≤ op.toNat ∧ op.toNat ≤ 8) :
    Statement i :=
  ⟨opField_of_shifts i.opcode i.nOperand i.lOperand, h ▸ hop⟩

theorem wake : Statement .wake := of_opcode .wake 0x01 rfl (by decide)
theorem dirTx : Statement .dirTx := of_opcode .dirTx 0x02 rfl (by decide)
theorem dirRx : Statement .dirRx := of_opcode .dirRx 0x03 rfl (by decide)
theorem send (n : BitVec 4) : Statement (.send n) := of_opcode (.send n) 0x04 rfl (by decide)
theorem recv (l : BitVec 8) : Statement (.recv l) := of_opcode (.recv l) 0x05 rfl (by decide)
theorem crc (l : BitVec 8) : Statement (.crc l) := of_opcode (.crc l) 0x06 rfl (by decide)
theorem check : Statement .check := of_opcode .check 0x07 rfl (by decide)
theorem query (n : BitVec 4) (l : BitVec 8) : Statement (.query n l) :=
  of_opcode (.query n l) 0x08 rfl (by decide)

end Sys2Proof.Laws.OpcodeByte
end

