-- ==== Sys2Proof/Laws/Step.lean ====
section
/-! SUPPORT. What a command, a host access, an input and a step can do: each answers a next state, and which. -/

namespace Sys2Proof.Machine

/-- Each command's next state, as the meaning computes it. -/
theorem exec_cases (i : Instr) (s : State) : ∃ t, exec i s = .next t := by
  cases i <;> exact ⟨_, rfl⟩

theorem issue_cases (v : Word) (s : State) :
    (∃ why, decode v = .illegal why ∧ issue v s = .next ((s.issued (opField v)).complete .illegal)) ∨
      (∃ i, decode v = .command i ∧ issue v s = exec i s) := by
  unfold issue
  cases h : decode v with
  | command i => exact .inr ⟨i, rfl, rfl⟩
  | illegal why => exact .inl ⟨why, rfl, rfl⟩

theorem writeCmd_next (v : Word) (s : State) : ∃ t, writeCmd v s = .next t := by
  rcases writeCmd_cases v s with ⟨-, h⟩ | ⟨-, h⟩
  · rw [h]
    rcases issue_cases v s with ⟨-, -, h⟩ | ⟨i, -, h⟩
    · exact ⟨_, h⟩
    · rw [h]
      exact exec_cases i s
  · exact ⟨_, h⟩

theorem writeReg_next (r : Reg) (v : Word) (s : State) : ∃ t, writeReg r v s = .next t := by
  cases r
  case cmd => exact writeCmd_next v s
  all_goals exact ⟨_, rfl⟩

/-- A write to a read-only register or a reserved offset changes nothing (20_memory.md R53). -/
theorem writeReg_ignored {r : Reg} (h : r.ignoresWrites = true) (v : Word) (s : State) :
    writeReg r v s = .next s := by
  cases r <;> first | rfl | exact absurd h (by decide)

/-- A write to a register locked while busy then only sets OVR (20_memory.md R57). -/
theorem writeReg_locked {r : Reg} (h : r.lockedWhileBusy = true) (v : Word) {s : State} (hb : s.phase ≠ .idle) :
    writeReg r v s = .next (s.setFlag .ovr) := by
  have hw : ∀ f, whenIdle f s = s.setFlag .ovr := fun f =>
    ((whenIdle_cases f s).resolve_left fun x => hb x.1).2
  cases r
  case cmd => exact ((writeCmd_cases v s).resolve_left fun x => hb x.1).2
  all_goals first
    | exact congrArg Host.Outcome.next (hw _)
    | exact absurd h (by decide)
    | exact absurd h Bool.false_ne_true

theorem handle_next (i : Input) (s : State) : ∃ t, handle i s = .next t := by
  cases i
  case host a =>
    cases a with
    | read off => exact ⟨_, rfl⟩
    | write off v => exact writeReg_next _ v s
  all_goals exact ⟨_, rfl⟩

/-- With no input pending a step changes nothing. -/
theorem step_nil {s : State} (h : s.inputs = []) : step s = .next s := by
  unfold step takeInput
  rw [h]

/-- A step with an input pending takes it and records it. -/
theorem step_cons {s : State} {i : Input} {rest : List Input} (h : s.inputs = i :: rest) :
    step s = recordOutcome i (handle i { s with inputs := rest }) := by
  unfold step takeInput
  rw [h]

/-- A step whose input is handled with the next state `u`. -/
theorem step_of_handle {s u : State} {i : Input} {rest : List Input} (h : s.inputs = i :: rest)
    (hu : handle i { s with inputs := rest } = .next u) : step s = .next (u.record i) := by
  rw [step_cons h, hu]
  rfl

/-- The offset of CMD selects CMD, whatever its bits [1:0] are. -/
theorem ofOffset_cmd {off : Offset} (h : off &&& 0xFFC = 0x008) : Reg.ofOffset off = .cmd := by
  unfold Reg.ofOffset wordOffset
  rw [h]
  rfl

/-- Every step: nothing pending and nothing changed, or the next input handled and recorded. -/
theorem step_cases {s t : State} (h : step s = .next t) :
    (s.inputs = [] ∧ t = s) ∨
      ∃ i rest u, s.inputs = i :: rest ∧ handle i { s with inputs := rest } = .next u ∧ t = u.record i := by
  cases hi : s.inputs with
  | nil =>
    rw [step_nil hi] at h
    cases h
    exact .inl ⟨rfl, rfl⟩
  | cons i rest =>
    rw [step_cons hi] at h
    obtain ⟨u, hu⟩ := handle_next i { s with inputs := rest }
    rw [hu] at h
    cases h
    exact .inr ⟨i, rest, u, rfl, hu, rfl⟩

end Sys2Proof.Machine
end

