-- ==== Sys2Proof/Laws/Run.lean ====
section
/-! SUPPORT. What a run of several steps can do, and that handling an input leaves the inputs behind it pending,
and the inputs of a clock cycle. -/

namespace Sys2Proof.Machine

@[simp] theorem runSteps_zero (s : State) : runSteps 0 s = .next s := rfl

/-- A host core's run goes on from the next state of its first step. -/
theorem coreRun_succ (M : Host.Core) {s t : M.State} (h : M.step s = .next t) (n : Nat) :
    M.run (n + 1) s = M.run n t := by simp [Host.Core.run, h]

theorem runSteps_succ {s t : State} (h : step s = .next t) (n : Nat) : runSteps (n + 1) s = runSteps n t :=
  coreRun_succ Sys2Proof.core h n

/-- A step of any state answers a next state. -/
theorem step_next (s : State) : ∃ t, step s = .next t := by
  cases hi : s.inputs with
  | nil => exact ⟨s, step_nil hi⟩
  | cons i rest =>
    obtain ⟨u, hu⟩ := handle_next i { s with inputs := rest }
    exact ⟨u.record i, step_of_handle hi hu⟩

theorem runSteps_add {s t : State} {m : Nat} (h : runSteps m s = .next t) (n : Nat) :
    runSteps (m + n) s = runSteps n t := by
  induction m generalizing s with
  | zero =>
    cases h
    rw [Nat.zero_add]
  | succ m ih =>
    obtain ⟨u, hu⟩ := step_next s
    rw [runSteps_succ hu] at h
    rw [Nat.succ_add, runSteps_succ hu]
    exact ih h

/-- `issue` leaves the pending inputs as they are. -/
theorem issue_inputs {v : Word} {s t : State} (h : issue v s = .next t) : t.inputs = s.inputs := by
  rcases issue_cases v s with ⟨w, -, h'⟩ | ⟨i, -, h'⟩ <;> rw [h'] at h
  · cases h; rfl
  · cases i <;>
      simp only [exec, execWake, execDirTx, execDirRx, execSend, execRecv, execCrc, execCheck, execQuery,
        Host.Outcome.next.injEq] at h <;>
      subst h <;> (repeat' split) <;> rfl

/-- Handling an input leaves the inputs behind it pending. -/
theorem handle_inputs {i : Input} {s t : State} (h : handle i s = .next t) : t.inputs = s.inputs := by
  cases i with
  | reset => cases h; rfl
  | terr => cases h; unfold onTerr; dsimp only; (repeat' split) <;> rfl
  | rxByte b => cases h; unfold onRxByte takeByte; dsimp only; (repeat' split) <;> rfl
  | txDone => cases h; unfold onTxDone State.endSend; dsimp only; (repeat' split) <;> rfl
  | tick =>
    cases h
    unfold onTick tickBreak tickMark tickSend tickRecv State.endMark
    dsimp only
    (repeat' split) <;> rfl
  | host a =>
    cases a with
    | read off => cases h; rfl
    | write off v =>
      change writeReg (Reg.ofOffset off) v s = _ at h
      cases hr : Reg.ofOffset off <;> rw [hr] at h
      case cmd =>
        rcases writeCmd_cases v s with ⟨-, h'⟩ | ⟨-, h'⟩
        · exact issue_inputs (h'.symm.trans h)
        · cases h'.symm.trans h; rfl
      all_goals cases h; first | rfl | (unfold whenIdle; split <;> rfl)

@[simp] theorem afterInputs_nil (s : State) : afterInputs [] s = s := rfl

theorem afterInputs_cons {i : Input} {s t : State} (h : handle i s = .next t) (rest : List Input) :
    afterInputs (i :: rest) s = afterInputs rest t := by simp [afterInputs, h]

@[simp] theorem keepFresh_read (fresh : BitVec 5) (off : Offset) : keepFresh fresh (.read off) = .read off := rfl

/-- No event of a cycle is a host access. -/
theorem host_notMem_cycleEvents (a : Access) (c : Cycle) : Input.host a ∉ cycleEvents c := by
  obtain ⟨r, te, rx, td, ti, _⟩ := c
  cases r <;> cases te <;> cases rx <;> cases td <;> cases ti <;> simp [cycleEvents]

/-- The inputs of a cycle in which the host writes INTSTAT: the events, then the write without the flags they set. -/
theorem cycleInputs_of_intstat {c : Cycle} {off : Offset} {v : Word} (hc : c.host = some (.write off v))
    (ho : Reg.ofOffset off = .intstat) (s : State) :
    cycleInputs c s = cycleEvents c ++
      [.host (.write off (v &&& ~~~((flagsSetBy (cycleEvents c) s).setWidth 32)))] := by
  simp [cycleInputs, hc, keepFresh, ho]

end Sys2Proof.Machine
end

