-- ==== Sys2Proof/Tests/Slice0.lean ====
section
/-! SUPPORT. Tests. Expected words and values are those of spec/95_test_vectors.md (its section is named at each test)
or are written out bit by bit from the encoding of 30_encoding.md. The `witness_` theorems show concrete states and
operands that meet the hypotheses of a statement together, clause by clause, at boundary values. -/

namespace Sys2Proof.Tests

open Sys2Proof.Machine

-- One proof after another: many kernel evaluations side by side need a thread each.
set_option Elab.async false

/-- Whether an outcome is a next state with a property. -/
def nextHas (o : Host.Outcome State Fault Refusal) (p : State → Bool) : Bool :=
  match o with
  | .next t => p t
  | .fault _ => false
  | .refused _ => false

/-- A state with one input pending. -/
def pending (i : Input) (s : State) : State := { s with inputs := [i] }

/-- Whether the next state of one step on the input `i` has a property. -/
def stepHas (i : Input) (s : State) (p : State → Bool) : Bool := nextHas (step (pending i s)) p

/-- Whether one CMD write of `v` leaves RESULT and STATUS at these values. -/
def issueGives (s : State) (v result status : Word) : Bool :=
  stepHas (hostWrite 0x008 v) s fun t => t.regValue 0x00C == result && t.regValue 0x004 == status

/-- Reset, with the Transmit role. -/
def inTransmit : State := { State.reset with role := .transmit }

/-- Reset, with the Transmit role and a byte in flight. -/
def inFlight : State := { inTransmit with txpend := true }

/-- A WAKE in its break. -/
def inBreak : State :=
  { State.reset with
    pinmode := .gpio
    level := .high
    phase := .brk
    curop := 0x01
    cnt := 12000
    rop := 0x01 }

/-- A command in its marking, at its last tick. -/
def atMarkEnd (op : BitVec 8) : State :=
  { State.reset with phase := .mark, curop := op, cnt := 1, txn := 1, rxmax := 1, rop := op }

/-- A command whose last byte is in flight. -/
def inSend (op : BitVec 8) : State :=
  { inFlight with phase := .send, curop := op, cnt := 1, txn := 1, txidx := 1, rxmax := 1, rop := op }

/-- A RECV of at most `max` bytes with `raw` of them stored. -/
def inRecv (max raw : BitVec 8) (buf : Memory) : State :=
  { State.reset with phase := .recv, curop := 0x05, cnt := 1, rxmax := max, rxraw := raw, rxbuf := buf, rop := 0x05 }

/-- `@@@` (42_checksum.md R172: the code of the value 0x0000) received, with the initial value 0x0000. -/
def codeOnly : State :=
  { State.reset with crcinit := 0x0000, rxlen := 3, rxraw := 5, rxbuf := [(0, 0x40), (1, 0x40), (2, 0x40)] }

/-! ## Well-formedness: an ill-formed term for each check -/

theorem test_wf_txCount : (Instr.send 0).wf = false ∧ (Instr.send 9).wf = false ∧ (Instr.send 1).wf = true ∧
    (Instr.send 8).wf = true := by decide

theorem test_wf_maxLen : (Instr.recv 0).wf = false ∧ (Instr.recv 129).wf = false ∧ (Instr.recv 1).wf = true ∧
    (Instr.recv 128).wf = true := by decide

theorem test_wf_scanLen : (Instr.crc 129).wf = false ∧ (Instr.crc 0).wf = true ∧ (Instr.crc 128).wf = true := by
  decide

theorem test_wf_query :
    (Instr.query 0 1).wf = false ∧ (Instr.query 9 1).wf = false ∧ (Instr.query 1 0).wf = false ∧
    (Instr.query 1 129).wf = false ∧ (Instr.query 8 128).wf = true := by decide

/-! ## Decoding: every constructor from a word written out as RSV1, L, RSV0, N, OP (30_encoding.md R81) -/

theorem test_decode_wake : decode 0b00000000_00000000_0000_0000_00000001 = .command .wake := by decide

theorem test_decode_dirTx : decode 0b00000000_00000000_0000_0000_00000010 = .command .dirTx := by decide

theorem test_decode_dirRx : decode 0b00000000_00000000_0000_0000_00000011 = .command .dirRx := by decide

theorem test_decode_send : decode 0b00000000_00000000_0000_1000_00000100 = .command (.send 8) := by decide

theorem test_decode_recv : decode 0b00000000_10000001_0000_0000_00000101 = .command (.recv 129) := by decide

theorem test_decode_crc : decode 0b00000000_10000000_0000_0000_00000110 = .command (.crc 128) := by decide

theorem test_decode_check : decode 0b00000000_00000000_0000_0000_00000111 = .command .check := by decide

theorem test_decode_query : decode 0b00000000_00010000_0000_0010_00001000 = .command (.query 2 16) := by decide

/-- 30_encoding.md R85: the checks in their order, RSV before OP, OP before N, N before L. -/
theorem test_decode_refused :
    decode 0x00001009 = .illegal .reservedBits ∧ decode 0x80000001 = .illegal .reservedBits ∧
    decode 0x00000000 = .illegal .opcode ∧ decode 0x00010109 = .illegal .opcode ∧
    decode 0x00010101 = .illegal .nNotZero ∧ decode 0x00000106 = .illegal .nNotZero ∧
    decode 0x00010204 = .illegal .lNotZero := by decide

theorem test_encode_query : encode (.query 2 16) = 0x00100208 ∧ encode (.crc 4) = 0x00040006 := by decide

/-- spec/opcode_table.json: bit 0 is the least significant bit; a number of more than 32 bits is no command word. -/
theorem test_decodeTableWord : decodeTableWord 32 0x00100208 = some (.query 2 16) ∧
    decodeTableWord 32 0x00010101 = none ∧ decodeTableWord 40 0x100000001 = none := by decide

/-! ## One CMD write (95_test_vectors.md sections 2.1 and 2.9) -/

theorem test_issue_wake : issueGives State.reset 0x00000001 0x00000100 0x0001010D ∧
    issueGives inTransmit 0x00000001 0x00000100 0x0001010F ∧
    issueGives inFlight 0x00000001 0x0000010D 0x00000012 := by decide +kernel

theorem test_issue_dirTx : issueGives State.reset 0x00000002 0x00000201 0x00000002 ∧
    issueGives inFlight 0x00000002 0x00000201 0x00000012 := by decide +kernel

theorem test_issue_dirRx : issueGives inTransmit 0x00000003 0x00000301 0x00000000 ∧
    issueGives inFlight 0x00000003 0x0000030D 0x00000012 := by decide +kernel

theorem test_issue_send : issueGives State.reset 0x00000004 0x0000040B 0x00000000 ∧
    issueGives State.reset 0x00000804 0x0000040C 0x00000000 ∧
    issueGives inTransmit 0x00000804 0x00000400 0x00040313 ∧
    issueGives inTransmit 0x00000904 0x0000040B 0x00000002 ∧
    issueGives inFlight 0x00000104 0x0000040D 0x00000012 := by decide +kernel

theorem test_issue_recv : issueGives State.reset 0x00800005 0x00000500 0x00050401 ∧
    issueGives State.reset 0x00810005 0x0000050B 0x00000000 ∧
    issueGives inTransmit 0x00010005 0x0000050C 0x00000002 ∧
    issueGives inFlight 0x00010005 0x0000050C 0x00000012 := by decide +kernel

theorem test_issue_crc : issueGives State.reset 0x00000006 0x00000601 0x00000000 ∧
    issueGives inTransmit 0x00810006 0x0000060B 0x00000002 ∧
    issueGives State.reset 0x00000106 0x0000060A 0x00000000 := by decide +kernel

theorem test_issue_check : issueGives State.reset 0x00000007 0x00000709 0x00000000 ∧
    issueGives codeOnly 0x00000007 0x00000701 0x00000000 ∧
    issueGives { codeOnly with crcinit := 0xFFFF } 0x00000007 0x00000708 0x00000000 := by decide +kernel

theorem test_issue_query : issueGives inTransmit 0x00800808 0x00000800 0x0008010F ∧
    issueGives State.reset 0x00000108 0x0000080B 0x00000000 ∧
    issueGives State.reset 0x00810108 0x0000080B 0x00000000 ∧
    issueGives inFlight 0x00010108 0x0000080D 0x00000012 := by decide +kernel

/-- 10_state.md R26(d): a QUERY 1 after a transmission of two bytes leaves no index beyond its count. -/
theorem test_query_index : nextHas (exec (.query 1 1) { State.reset with txn := 2, txidx := 2 }) (fun t =>
    t.txn == 1 && t.txidx == 0) = true := by decide +kernel

/-- An illegal word records its OP (section 2.1, words 0x0000_00FF, 0x0000_1001, 0x0100_0001). -/
theorem test_issue_illegal : issueGives inTransmit 0x000000FF 0x0000FF0A 0x00000002 ∧
    issueGives State.reset 0x00001001 0x0000010A 0x00000000 ∧
    issueGives State.reset 0x01000001 0x0000010A 0x00000000 := by decide +kernel

/-! ## Registers (section 2.2) -/

/-- The value TIMING reads after a write of `v`. -/
def timingGives (v back : Word) : Bool := stepHas (hostWrite 0x014 v) State.reset fun t => t.regValue 0x014 == back

theorem test_timing_floors : timingGives 0x00000000 0x206C2EE0 ∧ timingGives 0xFFFFFFFF 0xFFFFFFFF ∧
    timingGives 0x20D02EDF 0x20D02EE0 ∧ timingGives 0x23283A98 0x23283A98 := by decide +kernel

theorem test_txd_bytes : stepHas (hostWrite 0x030 0x44332211) State.reset fun t =>
    t.txbuf == [(0, 0x11), (1, 0x22), (2, 0x33), (3, 0x44)] && t.regValue 0x030 == 0x44332211 := by decide +kernel

theorem test_intstat_w1c : stepHas (hostWrite 0x028 0x0A) { State.reset with intstat := 0x1F } fun t =>
    t.intstat == 0x15 := by decide +kernel

theorem test_irq_mask : ({ State.reset with intstat := 0x08, inten := 0x01 } : State).irq = false ∧
    ({ State.reset with intstat := 0x08, inten := 0x09 } : State).irq = true := by decide

theorem test_busy_write_overrun : stepHas (hostWrite 0x008 0x00000002) inBreak fun t =>
    t.regValue 0x004 == 0x0001010D && t.regValue 0x00C == 0x00000100 && t.intstat == 0x04 := by decide +kernel

/-! ## Line events (sections 2.3, 2.5 and 2.8) -/

theorem test_break_end : stepHas .tick { inBreak with cnt := 1 } fun t =>
    t.regValue 0x004 == 0x00010201 && t.cnt == 9000 := by decide +kernel

theorem test_terr_in_break : stepHas .terr inBreak fun t =>
    t.regValue 0x004 == 0 && t.regValue 0x00C == 0x00000107 && t.intstat == 0x03 := by decide +kernel

theorem test_tx_timeout : stepHas .tick (inSend 0x04) fun t =>
    t.regValue 0x00C == 0x00000406 && t.regValue 0x004 == 0x00000012 && t.intstat == 0x03 := by decide +kernel

/-- Case (a): the LF of `0\r\n`. -/
theorem test_recv_eol : stepHas (.rxByte 0x0A) (inRecv 16 2 [(0, 0x30), (1, 0x0D)]) fun t =>
    t.regValue 0x00C == 0x00000502 && t.regValue 0x010 == 0x00100301 && t.intstat == 0x01 := by decide +kernel

/-- Case (f): a full buffer of one byte. -/
theorem test_recv_full : stepHas (.rxByte 0x30) (inRecv 1 0 []) fun t =>
    t.regValue 0x00C == 0x00000505 && t.regValue 0x010 == 0x00010101 && t.intstat == 0x01 := by decide +kernel

/-- Cases (d) and (e): the timeout after `\r` and after `0+1`. -/
theorem test_recv_timeout :
    (stepHas .tick (inRecv 16 1 [(0, 0x0D)]) fun t =>
      t.regValue 0x00C == 0x00000503 && t.regValue 0x010 == 0x00100100 && t.intstat == 0x03) ∧
    (stepHas .tick (inRecv 16 3 [(0, 0x30), (1, 0x2B), (2, 0x31)]) fun t =>
      t.regValue 0x00C == 0x00000504 && t.regValue 0x010 == 0x00100303 && t.intstat == 0x03) := by decide +kernel

/-! ## Checksum (section 2.6) -/

theorem test_crc_byte : crcByte 0xFFFF 0x30 = 0x54BF ∧ crcShift 0xFFCF = 0xDFE6 := by decide +kernel

/-- `0013` from both initial values, and `123456789`. -/
theorem test_crc_fold : crcFold 0xFFFF [0x30, 0x30, 0x31, 0x33] = 0xAE5A ∧
    crcFold 0x0000 [0x30, 0x30, 0x31, 0x33] = 0x8A5A ∧
    crcFold 0xFFFF [0x31, 0x32, 0x33, 0x34, 0x35, 0x36, 0x37, 0x38, 0x39] = 0x4B37 := by decide +kernel

/-- `enc3(0xFC5A)` is `OqZ`, `enc3(0xFFFF)` is 4F 7F 7F. -/
theorem test_enc3 : enc3 0xFC5A = (0x4F, 0x71, 0x5A) ∧ enc3 0xFFFF = (0x4F, 0x7F, 0x7F) := by decide +kernel

/-- Section 2.7: CRC 4 over `0`, CR, `13` stops at the CR. -/
theorem test_crc_stops_at_cr : crcScan [(0, 0x30), (1, 0x0D), (2, 0x31), (3, 0x33)] 0xFFFF 4 = 0x54BF := by
  decide +kernel

/-! ## Host side -/

/-- 30_encoding.md R90: TXLOAD of `0!` writes both words. -/
theorem test_txload : txload [0x30, 0x21] = [hostWrite 0x030 0x00002130, hostWrite 0x034 0] := by decide

/-- 60_exceptions.md R214: the order of one cycle. -/
theorem test_cycle_order : cycleInputs
      { reset := true
        terr := true
        rxByte := some 0x30
        txDone := true
        tick := true
        host := some (.read 0x004) } State.reset =
    [.reset, .terr, .rxByte 0x30, .txDone, .tick, .host (.read 0x004)] := by decide +kernel

/-- A cycle in which a byte comes while idle and the host writes ones to all of INTSTAT. -/
def dropAndClear : Cycle :=
  { reset := false
    terr := false
    rxByte := some 0x30
    txDone := false
    tick := false
    host := some (.write 0x028 0x1F) }

/-- A state with ERR and DROP pending, at the start of that cycle. -/
def atDropAndClear : State :=
  { State.reset with
    intstat := 0x0A
    inputs := cycleInputs dropAndClear { State.reset with intstat := 0x0A } }

/-- 60_exceptions.md R207: DROP, set in the cycle, stays set; ERR is cleared. -/
theorem test_set_wins_over_clear : nextHas (runSteps 2 atDropAndClear) (fun t => t.intstat == 0x08) = true := by
  decide +kernel

/-! ## Witnesses: the hypotheses of the statements are met -/

/-- The invariant holds in the states the witnesses use. -/
theorem inv_inTransmit : Inv inTransmit := by constructor <;> decide

theorem inv_inFlight : Inv inFlight := by constructor <;> decide

theorem inv_inBreak : Inv inBreak := by constructor <;> decide

theorem inv_atMarkEnd : Inv (atMarkEnd 0x01) ∧ Inv (atMarkEnd 0x08) := by
  constructor <;> constructor <;> decide

theorem inv_inSend : Inv (inSend 0x04) ∧ Inv (inSend 0x08) := by constructor <;> constructor <;> decide

theorem inv_inRecv : Inv (inRecv 16 0 []) := by constructor <;> decide

theorem witness_EncodeOfDecode : decode 0x00100208 = .command (.query 2 16) := by decide

/-- A row that accepts a word with arguments, and one that refuses it. -/
theorem witness_OpcodeTableIsTheDecoder :
    (⟨"QUERY", 0xFF00F0FF, 0x00000008⟩ : OpcodeRow) ∈ opcodeTable ∧
    OpcodeRow.accepts ⟨"QUERY", 0xFF00F0FF, 0x00000008⟩ 0x00100208 = true ∧
    (⟨"WAKE", 0xFFFFFFFF, 0x00000001⟩ : OpcodeRow) ∈ opcodeTable ∧
    OpcodeRow.accepts ⟨"WAKE", 0xFFFFFFFF, 0x00000001⟩ 0x00100208 = false := by decide

/-- An idle state with a CMD write pending, at the last offset of the word; OP 9 is illegal, OP 8 is not. -/
theorem witness_CmdWrite : (pending (.host (.write 0x00B 0x00000009)) State.reset).phase = .idle ∧
    (pending (.host (.write 0x00B 0x00000009)) State.reset).inputs = [.host (.write 0x00B 0x00000009)] ∧
    (0x00B : Offset) &&& 0xFFC = 0x008 ∧ 9 ≤ ((0x00000009 : Word).extractLsb' 0 8).toNat ∧
    decode 0x00010108 = .command (.query 1 1) := by decide

/-- Each way to be illegal, with every other field of the word legal. -/
theorem witness_IllegalWord : ((0x00000000 : Word).extractLsb' 0 8).toNat = 0 ∧
    (0x00008001 : Word).extractLsb' 12 4 ≠ 0 ∧ (0x80000001 : Word).extractLsb' 24 8 ≠ 0 ∧
    ((0x00000106 : Word).extractLsb' 8 4 ≠ 0 ∧ ((0x00000106 : Word).extractLsb' 0 8).toNat = 6) ∧
    ((0x00800007 : Word).extractLsb' 16 8 ≠ 0 ∧ ((0x00800007 : Word).extractLsb' 0 8).toNat = 7) := by decide

theorem witness_StepAnswersNext : State.reset.inputs = [] := rfl

theorem witness_WakeAndQueryStartBreak : State.reset.txpend = false ∧ 1 ≤ (8 : BitVec 4).toNat ∧
    (8 : BitVec 4).toNat ≤ 8 ∧ 1 ≤ (128 : BitVec 8).toNat ∧ (128 : BitVec 8).toNat ≤ 128 := by decide

theorem witness_DirRxSetsReceive : inTransmit.txpend = false ∧ inFlight.txpend = true := by decide

theorem witness_SendHandsOverFirstByte : inTransmit.role = .transmit ∧ inTransmit.txpend = false ∧
    1 ≤ (8 : BitVec 4).toNat ∧ (8 : BitVec 4).toNat ≤ 8 := by decide

theorem witness_RecvArmsReceiver : State.reset.role = .receive ∧ 1 ≤ (128 : BitVec 8).toNat ∧
    (128 : BitVec 8).toNat ≤ 128 := by decide

theorem witness_CrcFoldsBufferUpToCr : (128 : BitVec 8).toNat ≤ 128 := by decide

/-- `rxlen` 2 is malformed; `@@@` is the code from 0x0000 and not from 0xFFFF. -/
theorem witness_CheckReportsTheComparison :
    ({ State.reset with rxlen := 2 } : State).rxlen.toNat < 3 ∧ 3 ≤ codeOnly.rxlen.toNat ∧
    (codeOnly.rxbuf.read 0, codeOnly.rxbuf.read 1, codeOnly.rxbuf.read 2) = enc3 (crcFold codeOnly.crcinit []) ∧
    (codeOnly.rxbuf.read 0, codeOnly.rxbuf.read 1, codeOnly.rxbuf.read 2) ≠ enc3 (crcFold 0xFFFF []) := by
  decide +kernel

/-- Each outcome of the checks has a case: busy, BADARG before ROLE, ROLE before TXPEND, TXPEND, none. -/
theorem witness_FirstFailingCheckDecides :
    (pending (.host (.write 0x008 0x00000001)) inBreak).phase ≠ .idle ∧ inFlight.phase = .idle ∧
    (Instr.recv 0).wf = false ∧ ((Instr.recv 1).wf = true ∧ inFlight.role ≠ .receive) ∧
    ((Instr.query 1 1).wf = true ∧ inFlight.txpend = true) ∧
    ((Instr.query 1 1).wf = true ∧ inTransmit.txpend = false) := by decide

/-- The three rejections, in idle states that meet the invariant. -/
theorem witness_RejectedCommand : Inv inFlight ∧ inFlight.phase = .idle ∧
    nextHas (exec (.send 9) inFlight) (fun t => t.rcode == .badArg) = true ∧
    nextHas (exec (.recv 1) inFlight) (fun t => t.rcode == .role) = true ∧
    nextHas (exec .wake inFlight) (fun t => t.rcode == .txPend) = true :=
  ⟨inv_inFlight, rfl, by decide +kernel, by decide +kernel, by decide +kernel⟩

/-- An accepted command that completes, one that runs, and a step that keeps a running command running. -/
theorem witness_AcceptedCommand :
    nextHas (exec (.crc 0) State.reset) (fun t => t.rcode == .ok) = true ∧
    nextHas (exec .wake State.reset) (fun t => t.rcode == .none) = true ∧
    Inv inBreak ∧ inBreak.phase ≠ .idle ∧ stepHas .tick inBreak (fun t => t.phase == .brk) = true :=
  ⟨by decide +kernel, by decide +kernel, inv_inBreak, by decide, by decide +kernel⟩

theorem witness_RegRead : (pending (.host (.read 0x004)) State.reset).inputs = [.host (.read 0x004)] ∧
    (0x02F : Offset) &&& 0xFFC = 0x02C ∧
    ((0x038 : Offset) &&& 0xFFC = 0x038 ∧ 0x038 ≤ (0x038 : Offset).toNat ∧ (0x038 : Offset).toNat ≤ 0x0FC) ∧
    ((0x0FF : Offset) &&& 0xFFC = 0x0FC ∧ 0x038 ≤ (0x0FC : Offset).toNat ∧ (0x0FC : Offset).toNat ≤ 0x0FC) ∧
    ((0x180 : Offset) &&& 0xFFC = 0x180 ∧ 0x180 ≤ (0x180 : Offset).toNat) ∧
    ((0xFFF : Offset) &&& 0xFFC = 0xFFC ∧ 0x180 ≤ (0xFFC : Offset).toNat) := by decide

theorem witness_AccessGoesToTheWordOffset : Config.base + 4096 ≤ Config.base + 4096 := Nat.le_refl _

/-- The last byte of ID, the first and the last reserved offset, and an RXBUF word. -/
theorem witness_ReadOnlyWrites :
    ((0x003 : Offset) &&& 0xFFC).toNat = 0x000 ∧ ((0x02C : Offset) &&& 0xFFC).toNat = 0x02C ∧
    0x038 ≤ ((0x038 : Offset) &&& 0xFFC).toNat ∧ 0x038 ≤ ((0x17F : Offset) &&& 0xFFC).toNat ∧
    0x038 ≤ ((0xFFF : Offset) &&& 0xFFC).toNat := by decide

theorem witness_WritesWhileBusy : inBreak.phase ≠ .idle ∧ (0x037 : Offset) &&& 0xFFC = 0x034 := by decide

theorem witness_idleRegisterWrites : State.reset.phase = .idle := rfl

/-- A flag set before and clear after: by a write of ones, and by reset. -/
theorem witness_FlagsCleared :
    ({ State.reset with intstat := 0x10 } : State).intstat.getLsbD 4 = true ∧
    stepHas (hostWrite 0x02B 0x10) { State.reset with intstat := 0x10 } (fun t => !t.intstat.getLsbD 4) = true ∧
    stepHas .reset { State.reset with intstat := 0x10 } (fun t => !t.intstat.getLsbD 4) = true := by decide +kernel

theorem witness_TxdWriteReadsBack : State.reset.phase = .idle ∧
    (State.reset.txbuf.write 7 0x21).wf 8 = true := by decide

theorem witness_RxbufWindow : 31 < 32 ∧ 3 < 4 := by decide

theorem witness_EndOfBreak : (pending .tick { inBreak with cnt := 1 }).inputs = [.tick] ∧
    (pending .tick { inBreak with cnt := 1 }).phase = .brk ∧ (pending .tick { inBreak with cnt := 1 }).cnt = 1 ∧
    2 ≤ ({ inBreak with cnt := 2 } : State).cnt.toNat ∧
    ({ atMarkEnd 0x01 with cnt := 2 } : State).phase = .mark := by decide

theorem witness_EndOfMarking : (pending .tick (atMarkEnd 0x08)).inputs = [.tick] ∧ (atMarkEnd 0x08).phase = .mark ∧
    (atMarkEnd 0x08).cnt = 1 ∧ (atMarkEnd 0x01).curop = 0x01 ∧ (atMarkEnd 0x08).curop = 0x08 := by decide

/-- One tick of break and one of marking, with a dropped byte between them. -/
def shortBreak : State := { inBreak with cnt := 1, markUs := 1, inputs := [.rxByte 0x30, .tick, .tick] }

/-- The three clauses: after the byte alone, after the first tick, after the second. -/
theorem witness_BreakThenMarking :
    shortBreak.phase = .brk ∧ shortBreak.pinmode = .gpio ∧ shortBreak.level = .high ∧
    1 ≤ shortBreak.cnt.toNat ∧ 1 ≤ shortBreak.markUs.toNat ∧ shortBreak.curop = 0x01 ∧
    Input.terr ∉ shortBreak.inputs.take 3 ∧ Input.reset ∉ shortBreak.inputs.take 3 ∧
    (shortBreak.inputs.take 1).count .tick < shortBreak.cnt.toNat ∧
    (shortBreak.inputs.take 2).count .tick = shortBreak.cnt.toNat ∧
    (shortBreak.inputs.take 3).count .tick = shortBreak.cnt.toNat + shortBreak.markUs.toNat ∧
    (shortBreak.inputs.take 3).getLast? = some .tick := by decide

/-- A WAKE of one tick of break and one of marking, with a dropped byte between them. -/
def shortWake : State :=
  { State.reset with
    breakUs := 1
    markUs := 1
    inputs := [.host (.write 0x008 0x00000001), .rxByte 0x30, .tick, .tick] }

theorem witness_WakeTakes : shortWake.phase = .idle ∧ shortWake.txpend = false ∧ 1 ≤ shortWake.breakUs.toNat ∧
    1 ≤ shortWake.markUs.toNat ∧
    shortWake.inputs = .host (.write 0x008 0x00000001) :: [.rxByte 0x30, .tick, .tick] ∧
    Input.terr ∉ [Input.rxByte 0x30, .tick, .tick].take 3 ∧
    Input.reset ∉ [Input.rxByte 0x30, .tick, .tick].take 3 ∧
    ([Input.rxByte 0x30, .tick, .tick].take 2).count .tick < shortWake.breakUs.toNat + shortWake.markUs.toNat ∧
    ([Input.rxByte 0x30, .tick, .tick].take 3).count .tick = shortWake.breakUs.toNat + shortWake.markUs.toNat ∧
    ([Input.rxByte 0x30, .tick, .tick].take 3).getLast? = some .tick := by decide

theorem witness_TxDoneDuringSend : (pending .txDone (inSend 0x04)).inputs = [.txDone] ∧
    (inSend 0x04).phase = .send ∧ (inSend 0x04).txpend = true ∧
    ({ inSend 0x04 with txn := 2 } : State).txidx.toNat < ({ inSend 0x04 with txn := 2 } : State).txn.toNat ∧
    (inSend 0x04).txn.toNat ≤ (inSend 0x04).txidx.toNat ∧ (inSend 0x04).curop = 0x04 ∧
    (inSend 0x08).curop = 0x08 := by decide

theorem witness_TxDoneElsewhere : (pending .txDone inFlight).inputs = [.txDone] ∧ inFlight.phase ≠ .send ∧
    inFlight.txpend = true ∧ State.reset.txpend = false := by decide

theorem witness_TickDuringSend : (pending .tick (inSend 0x04)).inputs = [.tick] ∧ (inSend 0x04).phase = .send ∧
    (inSend 0x04).cnt = 1 ∧ 2 ≤ ({ inSend 0x04 with cnt := 2 } : State).cnt.toNat := by decide

/-- A run of one step, the `tx_done` of the byte in flight. -/
theorem witness_OneTxDonePerByte : Inv (pending .txDone (inSend 0x04)) ∧
    1 ≤ (pending .txDone (inSend 0x04)).inputs.length ∧ dutiesKept 1 (pending .txDone (inSend 0x04)) ∧
    Input.terr ∉ (pending .txDone (inSend 0x04)).inputs.take 1 ∧
    Input.reset ∉ (pending .txDone (inSend 0x04)).inputs.take 1 ∧
    nextHas (runSteps 1 (pending .txDone (inSend 0x04))) (fun t => !t.txpend) = true := by
  refine
    ⟨by constructor <;> decide, by decide, ⟨?_, fun _ _ => trivial⟩, by decide, by decide, by decide +kernel⟩
  intro i rest h
  obtain ⟨rfl, -⟩ : Input.txDone = i ∧ [] = rest := by simpa [pending] using h
  rfl

/-- A step that hands over a byte, with none in flight and with the `tx_done` of the one before. -/
theorem witness_EmittedByte : Inv inTransmit ∧
    stepHas (hostWrite 0x008 0x00000104) inTransmit (fun t => txBytesOf t.trace == [0x00]) = true ∧
    stepHas .txDone { inSend 0x04 with txn := 2 } (fun t => txBytesOf t.trace == [0x00]) = true :=
  ⟨inv_inTransmit, by decide +kernel, by decide +kernel⟩

/-- A LF, another byte in the last place, another byte before it. -/
theorem witness_RxByteDuringRecv : (pending (.rxByte 0x0A) (inRecv 128 127 [])).inputs = [.rxByte 0x0A] ∧
    (inRecv 128 127 []).phase = .recv ∧ (inRecv 128 127 []).rxraw.toNat < (inRecv 128 127 []).rxmax.toNat ∧
    (inRecv 128 127 []).rxmax.toNat ≤ 128 ∧ (0x30 : Byte) ≠ 0x0A ∧
    (inRecv 128 127 []).rxraw.toNat + 1 = (inRecv 128 127 []).rxmax.toNat ∧
    (inRecv 128 126 []).rxraw.toNat + 1 < (inRecv 128 126 []).rxmax.toNat := by decide

theorem witness_TickDuringRecv : (pending .tick (inRecv 16 1 [])).inputs = [.tick] ∧
    (inRecv 16 1 []).phase = .recv ∧ (inRecv 16 1 []).cnt = 1 ∧
    strip (inRecv 16 1 [(0, 0x0D)]).rxbuf 1 = 0 ∧ strip (inRecv 16 1 []).rxbuf 1 ≠ 0 ∧
    2 ≤ ({ inRecv 16 1 [] with cnt := 2 } : State).cnt.toNat := by decide

theorem witness_RxByteDropped : (pending (.rxByte 0x30) inBreak).inputs = [.rxByte 0x30] ∧
    (pending (.rxByte 0x30) inBreak).phase ≠ .recv := by decide

/-- A receive at its last tick, with a read of STATUS before it. -/
def atTimeout (buf : Memory) : State := { inRecv 16 1 buf with inputs := [.host (.read 0x004), .tick] }

/-- Still running after the read, ended after the tick; with only a CR stored, and with `0` stored. -/
theorem witness_SilentReceive : (atTimeout [(0, 0x0D)]).phase = .recv ∧ 1 ≤ (atTimeout [(0, 0x0D)]).cnt.toNat ∧
    Input.terr ∉ (atTimeout [(0, 0x0D)]).inputs.take 2 ∧ Input.reset ∉ (atTimeout [(0, 0x0D)]).inputs.take 2 ∧
    (∀ b, Input.rxByte b ∉ (atTimeout [(0, 0x0D)]).inputs.take 2) ∧
    ((atTimeout [(0, 0x0D)]).inputs.take 1).count .tick < (atTimeout [(0, 0x0D)]).cnt.toNat ∧
    ((atTimeout [(0, 0x0D)]).inputs.take 2).count .tick = (atTimeout [(0, 0x0D)]).cnt.toNat ∧
    ((atTimeout [(0, 0x0D)]).inputs.take 2).getLast? = some .tick ∧
    (∀ j, j < (atTimeout [(0, 0x0D)]).rxraw.toNat → (atTimeout [(0, 0x0D)]).rxbuf.read j = 0x0D) ∧
    (atTimeout [(0, 0x30)]).rxbuf.read 0 ≠ 0x0D ∧ (atTimeout [(0, 0x30)]).rxbuf.read 0 ≠ 0x0A :=
  ⟨rfl, by decide, by decide, by decide, fun b => by simp [atTimeout], by decide, by decide, by decide, by decide,
    by decide, by decide⟩

/-- The buffer changes by a reset and by a byte an armed receive takes. -/
theorem witness_RxbufWritten : Inv (inRecv 16 0 []) ∧
    stepHas (.rxByte 0x30) (inRecv 16 0 []) (fun t => t.rxbuf == [(0, 0x30)]) = true ∧
    stepHas .reset codeOnly (fun t => t.rxbuf == []) = true :=
  ⟨inv_inRecv, by decide +kernel, by decide +kernel⟩

/-- A byte and the last tick in one cycle; and a byte and the host's clearing write in one cycle. -/
theorem witness_SameCycle : (inRecv 128 126 []).phase = .recv ∧ (inRecv 128 126 []).cnt = 1 ∧
    (inRecv 128 126 []).rxraw.toNat + 1 < (inRecv 128 126 []).rxmax.toNat ∧
    (inRecv 128 126 []).rxmax.toNat ≤ 128 ∧ (0x30 : Byte) ≠ 0x0A ∧
    ({ inRecv 128 126 [] with inputs := [.rxByte 0x30, .tick] } : State).inputs =
      cycleInputs { dropAndClear with tick := true, host := none }
        { inRecv 128 126 [] with inputs := [.rxByte 0x30, .tick] } ∧
    dropAndClear.host = some (.write 0x028 0x1F) ∧ (0x028 : Offset) &&& 0xFFC = 0x028 ∧
    atDropAndClear.inputs = cycleInputs dropAndClear atDropAndClear ++ [] := by decide +kernel

theorem witness_TransportError : (pending .terr inBreak).inputs = [.terr] ∧ inBreak.phase ≠ .idle ∧
    (inRecv 16 1 []).phase = .recv ∧ inFlight.phase = .idle := by decide

theorem witness_ResetSetsEveryField : (pending .reset (inSend 0x08)).inputs = [.reset] := rfl

/-- CRCVAL, then two bytes of which the first is a CR. -/
theorem witness_Streaming : State.reset.phase = .idle ∧
    [hostWrite 0x01C 0xFFFF, hostWrite 0x020 0x0D, hostWrite 0x020 0x30] =
      hostWrite 0x01C 0xFFFF :: ([0x0D, 0x30].map (hostWrite 0x020) ++ []) := by decide

/-- A state that differs from `codeOnly` in the third byte of the buffer and in the role. -/
def otherCode : State := { inFlight with crcinit := 0x0000, rxbuf := [(0, 0x40), (1, 0x40), (2, 0x31)] }

theorem witness_CrcDepends : (2 : BitVec 8).toNat ≤ 128 ∧ codeOnly.crcinit = otherCode.crcinit ∧
    (∀ j, j < (2 : BitVec 8).toNat → codeOnly.rxbuf.read j = otherCode.rxbuf.read j) ∧
    nextHas (exec (.crc 2) codeOnly) (fun t => t.rcode == .ok) = true ∧
    nextHas (exec (.crc 2) otherCode) (fun t => t.rcode == .ok) = true := by decide +kernel

/-- A run of one step from reset. -/
theorem witness_ReachableStatesMeetR26 :
    nextHas (runSteps 1 { State.reset with inputs := [hostWrite 0x008 0x00000001] }) (fun t => t.phase == .brk) =
      true := by decide +kernel

theorem witness_StepKeepsInv : Inv (pending .tick (atMarkEnd 0x08)) ∧
    stepHas .tick (atMarkEnd 0x08) (fun t => t.phase == .send) = true :=
  ⟨by constructor <;> decide, by decide +kernel⟩

/-- The four places in which the role changes. -/
theorem witness_RoleChanges : stepHas .reset inTransmit (fun t => t.role == .receive) = true ∧
    stepHas .tick (atMarkEnd 0x08) (fun t => t.role == .transmit) = true ∧
    stepHas .txDone (inSend 0x08) (fun t => t.role == .receive) = true ∧
    stepHas (hostWrite 0x008 0x00000002) State.reset (fun t => t.role == .transmit) = true ∧
    stepHas (hostWrite 0x008 0x00000003) inTransmit (fun t => t.role == .receive) = true := by decide +kernel

theorem witness_RunningCommandInputs : (pending (hostWrite 0x030 0x55) inBreak).phase ≠ .idle ∧
    stepHas (hostWrite 0x030 0x55) inBreak (fun t => t.intstat == 0x04) = true ∧
    ∀ rest, (pending (hostWrite 0x030 0x55) inBreak).inputs ≠ .reset :: rest :=
  ⟨by decide, by decide +kernel, fun _ h => by simp [pending, hostWrite] at h⟩

/-- One tick is left and one is ahead; and each of the four commands runs from some state. -/
theorem witness_EveryCommandEnds : Inv (pending .tick (atMarkEnd 0x01)) ∧
    1 ≤ (pending .tick (atMarkEnd 0x01)).inputs.length ∧
    ticksLeft (pending .tick (atMarkEnd 0x01)) ≤ ticksAhead 1 (pending .tick (atMarkEnd 0x01)) ∧
    nextHas (exec .wake State.reset) (fun t => t.phase != .idle) = true ∧
    nextHas (exec (.send 8) inTransmit) (fun t => t.phase != .idle) = true ∧
    nextHas (exec (.recv 128) State.reset) (fun t => t.phase != .idle) = true ∧
    nextHas (exec (.query 8 128) State.reset) (fun t => t.phase != .idle) = true :=
  ⟨by constructor <;> decide, by decide, by decide, by decide +kernel, by decide +kernel, by decide +kernel,
    by decide +kernel⟩

end Sys2Proof.Tests
end

