-- ==== Sys2Proof/Proofs/BusyWrites.lean ====
section
/-! PROOFS. Register writes while busy (20_memory.md R57). -/

namespace Sys2Proof.Machine

/-- Bits [1:0] of an offset do not select a register (20_memory.md R51). -/
@[simp] theorem Reg.ofOffset_and_wordMask (off : Offset) : Reg.ofOffset (off &&& 0xFFC) = Reg.ofOffset off := by
  have hmask : off &&& 0xFFC &&& 0xFFC = off &&& 0xFFC := by rw [BitVec.and_assoc, BitVec.and_self]
  unfold Reg.ofOffset wordOffset
  rw [hmask]

/-- The seven word offsets of the registers locked while busy, in the order of the map of 20_memory.md R54. -/
theorem Reg.lockedWhileBusy_ofOffset {off : Offset}
    (h : off &&& 0xFFC = 0x008 ∨ off &&& 0xFFC = 0x014 ∨ off &&& 0xFFC = 0x018 ∨ off &&& 0xFFC = 0x01C ∨
      off &&& 0xFFC = 0x020 ∨ off &&& 0xFFC = 0x030 ∨ off &&& 0xFFC = 0x034) :
    (Reg.ofOffset off).lockedWhileBusy = true := by
  rw [← Reg.ofOffset_and_wordMask]
  rcases h with h | h | h | h | h | h | h <;> rw [h] <;> rfl

/-- What a write rule can be while busy: locked, none, or one of the two interrupt registers. -/
theorem Reg.write_kinds (r : Reg) :
    r.lockedWhileBusy = true ∨ r.ignoresWrites = true ∨ r = .inten ∨ r = .intstat := by
  cases r <;> simp [Reg.lockedWhileBusy, Reg.ignoresWrites]

/-- Setting OVR sets bit 2 of INTSTAT (20_memory.md R65). -/
theorem setFlag_ovr (s : State) : s.setFlag .ovr = { s with intstat := s.intstat ||| 0x04 } := rfl

/-- While busy a write of any register writes at most INTEN and INTSTAT. -/
theorem writeReg_busy_frame (r : Reg) (v : Word) {s : State} (hb : s.phase ≠ .idle) :
    ∃ en st, writeReg r v s = .next { s with inten := en, intstat := st } := by
  rcases r.write_kinds with hlock | hign | rfl | rfl
  · exact ⟨s.inten, _, writeReg_locked hlock v hb⟩
  · exact ⟨s.inten, s.intstat, writeReg_ignored hign v s⟩
  · exact ⟨_, s.intstat, rfl⟩
  · exact ⟨s.inten, _, rfl⟩

end Sys2Proof.Machine

namespace Sys2Proof.Proofs

open Sys2Proof.Machine

/-- Settles O23: a locked register's write only sets OVR, and no register's write while busy reaches a field other than
INTEN and INTSTAT. -/
theorem writesWhileBusy : Obligations.WritesWhileBusy := by
  unfold Obligations.WritesWhileBusy
  intro v s hb
  refine ⟨fun off hoff => ?locked, rfl, rfl, fun off t ht => ?frame⟩
  case locked =>
    have hlock := writeReg_locked (Reg.lockedWhileBusy_ofOffset hoff) v hb
    rwa [setFlag_ovr] at hlock
  case frame =>
    obtain ⟨en, st, hw⟩ := writeReg_busy_frame (Reg.ofOffset off) v hb
    obtain rfl : _ = t := Host.Outcome.next.inj (hw.symm.trans ht)
    exact ⟨rfl, rfl, rfl, rfl, rfl⟩

end Sys2Proof.Proofs
end

