-- ==== Sys2Proof/Proofs/IllegalWords.lean ====
section
/-! PROOFS. The illegal words of 30_encoding.md R87, and what a CMD write of one does. -/

namespace Sys2Proof

theorem Decoded.command?_eq_none_iff (d : Decoded) : d.command? = none ↔ ∃ why, d = .illegal why := by
  cases d <;> simp [Decoded.command?]

theorem Decoded.command?_ne_none_iff (d : Decoded) : d.command? ≠ none ↔ ∃ i, d = .command i := by
  cases d <;> simp [Decoded.command?]

/-- The "must be 0" checks refuse a nonzero field that must be 0, and nothing else. -/
theorem requireZero_command?_eq_none_iff (n l : Bool) (v : Word) (i : Instr) :
    (requireZero n l v i).command? = none ↔ (n = true ∧ nField v ≠ 0) ∨ (l = true ∧ lField v ≠ 0) := by
  unfold requireZero
  split
  case isTrue hn =>
    exact iff_of_true rfl (.inl (by simpa using hn))
  case isFalse hn =>
    have hn' : ¬ (n = true ∧ nField v ≠ 0) := by simpa using hn
    split
    case isTrue hl =>
      exact iff_of_true rfl (.inr (by simpa using hl))
    case isFalse hl =>
      have hl' : ¬ (l = true ∧ lField v ≠ 0) := by simpa using hl
      exact iff_of_false (Option.some_ne_none i) (not_or.2 ⟨hn', hl'⟩)

/-- R87's list of words. -/
def ListedIllegal (v : Word) : Prop :=
  let op := (opField v).toNat
  op = 0 ∨ 9 ≤ op ∨ rsv0Field v ≠ 0 ∨ rsv1Field v ≠ 0 ∨
    (nField v ≠ 0 ∧ (op = 1 ∨ op = 2 ∨ op = 3 ∨ op = 5 ∨ op = 6 ∨ op = 7)) ∨
    (lField v ≠ 0 ∧ (op = 1 ∨ op = 2 ∨ op = 3 ∨ op = 4 ∨ op = 7))

/-- The decoder refuses exactly the listed words: a reserved field first, then the opcode, then the fields that must
be 0 for the opcode. -/
theorem decode_command?_eq_none_iff (v : Word) : (decode v).command? = none ↔ ListedIllegal v := by
  unfold decode ListedIllegal
  by_cases hrsv : rsv0Field v ≠ 0 ∨ rsv1Field v ≠ 0
  · have hor : (rsv0Field v != 0 || rsv1Field v != 0) = true := by simpa using hrsv
    rw [if_pos hor]
    exact iff_of_true rfl (.inr (.inr (or_assoc.1 (.inl hrsv))))
  · have hor : ¬ (rsv0Field v != 0 || rsv1Field v != 0) = true := by simpa using hrsv
    obtain ⟨h0, h1⟩ : rsv0Field v = 0 ∧ rsv1Field v = 0 := by simpa using hrsv
    rw [if_neg hor]
    split
    case h_9 n1 n2 n3 n4 n5 n6 n7 n8 =>
      simp only [imp_false] at n1 n2 n3 n4 n5 n6 n7 n8
      have hrange : (opField v).toNat = 0 ∨ 9 ≤ (opField v).toNat := by omega
      exact iff_of_true rfl (or_assoc.1 (.inl hrange))
    all_goals
      rename_i hop
      simp [requireZero_command?_eq_none_iff, hop, h0, h1]

end Sys2Proof

namespace Sys2Proof.Machine

/-- Completion while idle: the phase is IDLE already. -/
theorem complete_of_idle {s : State} (h : s.phase = .idle) (c : ResultCode) :
    s.complete c =
      { s with rcode := c, curop := 0, cnt := 0, intstat := s.intstat ||| completionFlags c } := by
  cases s
  cases h
  rfl

/-- A step that takes a CMD write while idle issues the word (20_memory.md R56). -/
theorem step_cmdWrite_of_idle {v : Word} {off : Offset} {rest : List Input} {s : State} (hidle : s.phase = .idle)
    (hin : s.inputs = .host (.write off v) :: rest) (hoff : off &&& 0xFFC = 0x008) :
    step s = recordOutcome (.host (.write off v)) (issue v { s with inputs := rest }) := by
  have hwrite : writeCmd v { s with inputs := rest } = issue v { s with inputs := rest } :=
    ((writeCmd_cases v { s with inputs := rest }).resolve_right fun hbusy => hbusy.1 hidle).2
  rw [step_cons hin, ← hwrite]
  simp only [handle, onHost, regWrite, ofOffset_cmd hoff, writeReg]

/-- A word the decoder refuses completes with ILLEGAL under its opcode field. -/
theorem issue_of_illegal {v : Word} {why : IllegalReason} (h : decode v = .illegal why) (s : State) :
    issue v s = .next ((s.issued (opField v)).complete .illegal) := by
  unfold issue
  rw [h]

end Sys2Proof.Machine

namespace Sys2Proof.Proofs

open Sys2Proof.Machine

/-- Settles O6: the decoder refuses exactly the listed words, and the issue of a refused word is one completion. -/
theorem illegalWordCompletesIllegal : Obligations.IllegalWordCompletesIllegal := by
  unfold Obligations.IllegalWordCompletesIllegal
  intro v off rest s hidle hin hoff
  refine ⟨fun hlisted => ?listed, fun hother => ?other⟩
  case listed =>
    obtain ⟨why, hdec⟩ := (Decoded.command?_eq_none_iff _).1 ((decode_command?_eq_none_iff v).2 hlisted)
    have hissued : (State.issued (opField v) { s with inputs := rest }).phase = .idle := hidle
    rw [step_cmdWrite_of_idle hidle hin hoff, issue_of_illegal hdec, complete_of_idle hissued]
    rfl
  case other =>
    exact (Decoded.command?_ne_none_iff _).1 (mt (decode_command?_eq_none_iff v).1 hother)

end Sys2Proof.Proofs
end

