-- ==== Sys2Proof/Proofs/AcceptedCommands.lean ====
section
/-! PROOFS. What becomes of a command after its issue checks, and of the running command in a step
(30_encoding.md R86). -/

namespace Sys2Proof.Machine

/-- The results of the issue checks that refuse a command (30_encoding.md R85, steps 2 to 4). -/
def Rejected (t : State) : Prop := t.rcode = .badArg ∨ t.rcode = .role ∨ t.rcode = .txPend

/-- DIR.TX, DIR.RX, CRC or CHECK completed. -/
def CompletedInStep (i : Instr) (t : State) : Prop :=
  (i.opcode = 0x02 ∨ i.opcode = 0x03 ∨ i.opcode = 0x06 ∨ i.opcode = 0x07) ∧ t.phase = .idle ∧ t.rcode ≠ .none

/-- WAKE, SEND, RECV or QUERY keeps the SPE busy. -/
def Running (i : Instr) (t : State) : Prop :=
  (i.opcode = 0x01 ∨ i.opcode = 0x04 ∨ i.opcode = 0x05 ∨ i.opcode = 0x08) ∧ t.phase ≠ .idle ∧
    t.curop = i.opcode ∧ t.rcode = .none

theorem rejected_complete_badArg (s : State) : Rejected (s.complete .badArg) := .inl rfl

theorem rejected_complete_role (s : State) : Rejected (s.complete .role) := .inr (.inl rfl)

theorem rejected_complete_txPend (s : State) : Rejected (s.complete .txPend) := .inr (.inr rfl)

/-- CHECK always completes, with MALFORMED, OK or CRC_MISMATCH (42_checksum.md R176). -/
theorem execCheck_completes {s t : State} (h : execCheck s = .next t) :
    ∃ (c : ResultCode) (u : State), t = u.complete c ∧ u.rop = 0x07 ∧ c ≠ .none := by
  cases h
  split
  · exact ⟨.malformed, _, rfl, rfl, by decide⟩
  · dsimp only
    split
    · exact ⟨.ok, _, rfl, rfl, by decide⟩
    · exact ⟨.crcMismatch, _, rfl, rfl, by decide⟩

/-- Every command records its opcode. -/
theorem exec_rop {i : Instr} {s t : State} (h : exec i s = .next t) : t.rop = i.opcode := by
  cases i
  case check =>
    obtain ⟨c, u, rfl, hrop, -⟩ := execCheck_completes h
    exact hrop
  all_goals
    cases h
    (repeat' split) <;> rfl

/-- Every command is rejected, completes in its step, or runs: along its issue checks, in their order. -/
theorem exec_outcome {i : Instr} {s t : State} (h : exec i s = .next t) :
    Rejected t ∨ CompletedInStep i t ∨ Running i t := by
  cases i with
  | wake =>
    cases h
    split
    · exact .inl (rejected_complete_txPend _)
    · exact .inr (.inr ⟨by decide, by simp, rfl, rfl⟩)
  | dirTx => cases h; exact .inr (.inl ⟨by decide, rfl, by simp⟩)
  | dirRx =>
    cases h
    split
    · exact .inl (rejected_complete_txPend _)
    · exact .inr (.inl ⟨by decide, rfl, by simp⟩)
  | send n =>
    cases h
    split
    · exact .inl (rejected_complete_badArg _)
    split
    · exact .inl (rejected_complete_role _)
    split
    · exact .inl (rejected_complete_txPend _)
    · exact .inr (.inr ⟨by simp [Instr.opcode], by simp, rfl, rfl⟩)
  | recv l =>
    cases h
    split
    · exact .inl (rejected_complete_badArg _)
    split
    · exact .inl (rejected_complete_role _)
    · exact .inr (.inr ⟨by simp [Instr.opcode], by simp, rfl, rfl⟩)
  | crc l =>
    cases h
    split
    · exact .inl (rejected_complete_badArg _)
    · exact .inr (.inl ⟨by simp [Instr.opcode], rfl, by simp⟩)
  | check =>
    obtain ⟨c, u, rfl, -, hc⟩ := execCheck_completes h
    exact .inr (.inl ⟨by decide, rfl, hc⟩)
  | query n l =>
    cases h
    split
    · exact .inl (rejected_complete_badArg _)
    split
    · exact .inl (rejected_complete_badArg _)
    split
    · exact .inl (rejected_complete_txPend _)
    · exact .inr (.inr ⟨by simp [Instr.opcode], by simp, rfl, rfl⟩)

/-- From `s` to `t` the running command has ended, or is the same command with the same result register. -/
def EndsOrKeepsCommand (s t : State) : Prop :=
  t.phase = .idle ∨ (t.curop = s.curop ∧ t.rcode = s.rcode ∧ t.rop = s.rop)

theorem endsOrKeeps_complete (s u : State) (c : ResultCode) : EndsOrKeepsCommand s (u.complete c) := .inl rfl

theorem endsOrKeeps_refl (s : State) : EndsOrKeepsCommand s s := .inr ⟨rfl, rfl, rfl⟩

/-- The end of marking ends the WAKE and keeps the QUERY. -/
theorem endsOrKeeps_endMark (s : State) : EndsOrKeepsCommand s s.endMark := by
  rcases endMark_cases s with ⟨-, h⟩ | ⟨-, h⟩ | ⟨-, -, h⟩ <;> rw [h]
  · exact endsOrKeeps_complete s s .ok
  · exact .inr ⟨rfl, rfl, rfl⟩
  · exact endsOrKeeps_refl s

/-- The end of a transmission ends the SEND and keeps the QUERY. -/
theorem endsOrKeeps_endSend (s : State) : EndsOrKeepsCommand s s.endSend := by
  rcases endSend_cases s with ⟨-, h⟩ | ⟨-, h⟩ | ⟨-, -, h⟩ <;> rw [h]
  · exact endsOrKeeps_complete s s .ok
  · exact .inr ⟨rfl, rfl, rfl⟩
  · exact endsOrKeeps_refl s

theorem endsOrKeeps_onTick (s : State) : EndsOrKeepsCommand s (onTick s) := by
  have hcount : EndsOrKeepsCommand s s.countDown := .inr ⟨rfl, rfl, rfl⟩
  cases hp : s.phase <;> simp only [onTick, hp]
  case idle => exact endsOrKeeps_refl s
  case brk =>
    simp only [tickBreak]
    split
    · exact .inr ⟨rfl, rfl, rfl⟩
    · exact hcount
  case mark =>
    simp only [tickMark]
    split
    · exact endsOrKeeps_endMark s.countDown
    · exact hcount
  case send =>
    simp only [tickSend]
    split
    · exact endsOrKeeps_complete s _ _
    · exact hcount
  case recv =>
    simp only [tickRecv]
    split
    · split <;> exact endsOrKeeps_complete s _ _
    · exact hcount

theorem endsOrKeeps_onTxDone (s : State) : EndsOrKeepsCommand s (onTxDone s) := by
  unfold onTxDone
  split
  · dsimp only
    split
    · split
      · exact .inr ⟨rfl, rfl, rfl⟩
      · exact endsOrKeeps_endSend { s with txpend := false }
    · exact .inr ⟨rfl, rfl, rfl⟩
  · exact endsOrKeeps_refl s

theorem endsOrKeeps_onRxByte (b : Byte) (s : State) : EndsOrKeepsCommand s (onRxByte b s) := by
  unfold onRxByte takeByte
  split
  · dsimp only
    split
    · exact endsOrKeeps_complete s _ _
    · split
      · exact endsOrKeeps_complete s _ _
      · exact .inr ⟨rfl, rfl, rfl⟩
  · exact .inr ⟨rfl, rfl, rfl⟩

theorem endsOrKeeps_onTerr (s : State) : EndsOrKeepsCommand s (onTerr s) := by
  unfold onTerr
  split
  · exact endsOrKeeps_complete s _ _
  · exact .inr ⟨rfl, rfl, rfl⟩

/-- While busy no input starts a command: a CMD write then only sets OVR (20_memory.md R57). -/
theorem endsOrKeeps_handle {i : Input} {s t : State} (hb : s.phase ≠ .idle) (h : handle i s = .next t) :
    EndsOrKeepsCommand s t := by
  cases i with
  | reset => cases h; exact .inl rfl
  | terr => cases h; exact endsOrKeeps_onTerr s
  | rxByte b => cases h; exact endsOrKeeps_onRxByte b s
  | txDone => cases h; exact endsOrKeeps_onTxDone s
  | tick => cases h; exact endsOrKeeps_onTick s
  | host a =>
    cases a with
    | read off => cases h; exact .inr ⟨rfl, rfl, rfl⟩
    | write off v =>
      obtain ⟨en, st, hw⟩ := writeReg_busy_frame (Reg.ofOffset off) v hb
      obtain rfl : _ = t := Host.Outcome.next.inj (hw.symm.trans h)
      exact .inr ⟨rfl, rfl, rfl⟩

theorem endsOrKeeps_step {s t : State} (hb : s.phase ≠ .idle) (h : step s = .next t) :
    EndsOrKeepsCommand s t := by
  rcases step_cases h with ⟨-, rfl⟩ | ⟨i, rest, u, -, hu, rfl⟩
  · exact endsOrKeeps_refl t
  · have hkeep : EndsOrKeepsCommand { s with inputs := rest } u := endsOrKeeps_handle hb hu
    exact hkeep

end Sys2Proof.Machine

namespace Sys2Proof.Proofs

open Sys2Proof.Machine

/-- Settles O19: the three outcomes of an issue, and a step that leaves the SPE busy keeps the command it runs. -/
theorem acceptedCommandCompletesOrRuns : Obligations.AcceptedCommandCompletesOrRuns := by
  unfold Obligations.AcceptedCommandCompletesOrRuns
  refine ⟨fun i s t hexec hbad hrole hpend => ?issue, fun s t hinv hbusy hstep hbusy' => ?busy⟩
  case issue =>
    have hrej : ¬ Rejected t := by simp [Rejected, hbad, hrole, hpend]
    exact ⟨exec_rop hexec, (exec_outcome hexec).resolve_left hrej⟩
  case busy =>
    obtain ⟨hnone, hop⟩ := hinv.running_result hbusy
    obtain ⟨hcurop, hrcode, hrop⟩ := (endsOrKeeps_step hbusy hstep).resolve_left hbusy'
    exact ⟨hrcode.trans hnone, hrop, hcurop, by rw [hrop, hop, hcurop]⟩

end Sys2Proof.Proofs
end

