-- ==== Sys2Proof/Proofs/WakeTicks.lean ====
section
/-! PROOFS. What a tick does to the running counter: it only counts down before the last one, and the last tick of
break starts the marking (40_wake_duplex.md R102, R104). -/

namespace Sys2Proof.Machine

/-- A tick with more than one left only counts down, in every busy phase. -/
theorem onTick_of_two_le {s : State} (hb : s.phase ≠ .idle) (hc : 2 ≤ s.cnt.toNat) : onTick s = s.countDown := by
  have hleft : s.countDown.cnt ≠ 0 := countDown_ne_zero hc
  cases hp : s.phase <;> simp only [onTick, hp]
  case idle => exact absurd hp hb
  case brk => exact if_neg hleft
  case mark => exact if_neg hleft
  case send => exact if_neg hleft
  case recv => exact if_neg hleft

/-- The last tick of a counter takes it to zero. -/
theorem countDown_cnt_of_one {s : State} (hc : s.cnt = 1) : s.countDown.cnt = 0 := by
  rw [countDown_cnt, hc]
  rfl

/-- The last tick of break ends it; the end of break writes the counter anew, so the count leaves no mark (R102). -/
theorem onTick_break_last {s : State} (hp : s.phase = .brk) (hc : s.cnt = 1) : onTick s = s.endBreak := by
  simp only [onTick, hp]
  calc tickBreak s = s.countDown.endBreak := if_pos (countDown_cnt_of_one hc)
    _ = s.endBreak := rfl

/-- A step that takes a tick. -/
theorem step_tick {s : State} {rest : List Input} (h : s.inputs = .tick :: rest) :
    step s = .next ((onTick { s with inputs := rest }).record .tick) := step_of_handle h rfl

/-- A step that takes a tick with more than one left only counts down, in every busy phase. -/
theorem step_tick_of_two_le {s : State} {rest : List Input} (h : s.inputs = .tick :: rest) (hb : s.phase ≠ .idle)
    (hc : 2 ≤ s.cnt.toNat) : step s = .next (State.record .tick { s with inputs := rest, cnt := s.cnt - 1 }) := by
  have hcount : onTick { s with inputs := rest } = State.countDown { s with inputs := rest } := onTick_of_two_le hb hc
  rw [step_tick h, hcount]
  rfl

end Sys2Proof.Machine

namespace Sys2Proof.Proofs

open Sys2Proof.Machine

/-- Settles O31: the last tick of break is the end of break of R102, and an earlier tick of break or marking counts
down as in every busy phase. -/
theorem endOfBreakStartsMarking : Obligations.EndOfBreakStartsMarking := by
  unfold Obligations.EndOfBreakStartsMarking
  intro rest s hin
  refine ⟨fun hp hc => ?last, fun hp hc => ?earlier⟩
  case last =>
    have hend : onTick { s with inputs := rest } = State.endBreak { s with inputs := rest } :=
      onTick_break_last hp hc
    rw [step_tick hin, hend]
    rfl
  case earlier =>
    have hbusy : s.phase ≠ .idle := by rcases hp with hp | hp <;> simp [hp]
    exact step_tick_of_two_le hin hbusy hc

end Sys2Proof.Proofs
end

