-- ==== Sys2Proof/Proofs/LineEvents.lean ====
section
/-! PROOFS. What the two line events do: `tx_done` (41_transfer.md R133, R134) and a received byte (R143, R145). -/

namespace Sys2Proof.Machine

/-- A step that takes a `tx_done`. -/
theorem step_txDone {s u : State} {rest : List Input} (h : s.inputs = .txDone :: rest)
    (hu : onTxDone { s with inputs := rest } = u) : step s = .next (u.record .txDone) :=
  step_of_handle h (congrArg Host.Outcome.next hu)

/-- A step that takes a received byte. -/
theorem step_rxByte {s u : State} {b : Byte} {rest : List Input} (h : s.inputs = .rxByte b :: rest)
    (hu : onRxByte b { s with inputs := rest } = u) : step s = .next (u.record (.rxByte b)) :=
  step_of_handle h (congrArg Host.Outcome.next hu)

/-- With no byte in flight a `tx_done` is ignored (R134). -/
theorem onTxDone_of_none_inFlight {s : State} (h : s.txpend = false) : onTxDone s = s := by
  simp [onTxDone, h]

/-- Outside SEND the flushed byte is no longer in flight, and that is all (R134). -/
theorem onTxDone_outside_send {s : State} (hp : s.phase ≠ .send) (h : s.txpend = true) :
    onTxDone s = { s with txpend := false } := by
  simp [onTxDone, h, hp]

/-- In SEND the flushed byte is followed by the next one, or by the end of the transmission (R133). -/
theorem onTxDone_in_send {s : State} (hp : s.phase = .send) (h : s.txpend = true) :
    onTxDone s = if s.txidx.toNat < s.txn.toNat then State.sendNext { s with txpend := false }
      else State.endSend { s with txpend := false } := by
  simp [onTxDone, h, hp]

/-- The end of a SEND completes it with OK. -/
theorem endSend_of_send {s : State} (h : s.curop = 0x04) : s.endSend = s.complete .ok := if_pos h

/-- The end of a QUERY's transmission turns the line around (R152). -/
theorem endSend_of_query {s : State} (h : s.curop = 0x08) : s.endSend = s.turnaround := by
  have hsend : s.curop ≠ 0x04 := by rw [h]; decide
  exact (if_neg hsend).trans (if_pos h)

/-- A byte is taken only by an armed receive (R143). -/
theorem onRxByte_in_recv {s : State} (b : Byte) (hp : s.phase = .recv) : onRxByte b s = takeByte b s := if_pos hp

/-- A byte that comes in any other phase is dropped (R145). -/
theorem onRxByte_outside_recv {s : State} (b : Byte) (hp : s.phase ≠ .recv) : onRxByte b s = s.setFlag .drop :=
  if_neg hp

/-- A LF ends the receive, whether or not it fills the buffer (R143). -/
theorem takeByte_of_lf {s : State} {b : Byte} (hb : b = 0x0A) :
    takeByte b s = (s.storeByte b).stripLine.complete .eol := if_pos hb

/-- Any other byte ends the receive if its place is the last one (R143). -/
theorem takeByte_of_ne_lf {s : State} {b : Byte} (hb : b ≠ 0x0A) :
    takeByte b s = if s.rxraw + 1 = s.rxmax then (s.storeByte b).stripLine.complete .full else s.storeByte b :=
  if_neg hb

/-- Below a maximal length the count of stored bytes does not wrap. -/
theorem toNat_rxraw_add_one {s : State} (h : s.rxraw.toNat < s.rxmax.toNat) :
    (s.rxraw + 1).toNat = s.rxraw.toNat + 1 := by
  bv_omega

/-- Within the buffer the byte is stored at `rxraw` and the timer restarts (R143). -/
theorem storeByte_of_lt_cap {s : State} (b : Byte) (h : s.rxraw.toNat < 128) :
    s.storeByte b =
      { s with rxbuf := s.rxbuf.write s.rxraw.toNat b, rxraw := s.rxraw + 1, cnt := Config.pBtoUs } := by
  simp [State.storeByte, h]

end Sys2Proof.Machine

namespace Sys2Proof.Proofs

open Sys2Proof.Machine

/-- Settles O35: in SEND a `tx_done` is `sendNext` or `endSend`, and the running command decides what the latter is. -/
theorem txDoneDuringSend : Obligations.TxDoneDuringSend := by
  unfold Obligations.TxDoneDuringSend
  intro rest s hin hp hpend
  have hsend := onTxDone_in_send (s := { s with inputs := rest }) hp hpend
  refine ⟨fun hmore => ?next, fun hlast hop => ?send, fun hlast hop => ?query⟩
  case next => exact step_txDone hin (hsend.trans (if_pos hmore))
  all_goals have hend := hsend.trans (if_neg (Nat.not_lt.2 hlast))
  case send => exact step_txDone hin (hend.trans (endSend_of_send hop))
  case query => exact step_txDone hin (hend.trans (endSend_of_query hop))

/-- Settles O36: the two cases of a `tx_done` that R133 leaves over. -/
theorem txDoneElsewhere : Obligations.TxDoneElsewhere := by
  unfold Obligations.TxDoneElsewhere
  intro rest s hin
  refine ⟨fun hp hpend => ?outside, fun hnone => ?nothing⟩
  case outside => exact step_txDone hin (onTxDone_outside_send hp hpend)
  case nothing => exact step_txDone hin (onTxDone_of_none_inFlight hnone)

/-- Settles O40: the byte is stored within the buffer; then the LF test, and after it the test for the last place. -/
theorem rxByteDuringRecv : Obligations.RxByteDuringRecv := by
  unfold Obligations.RxByteDuringRecv
  intro b rest s hin hp hroom hmax buf stored stopped
  have hraw : (s.rxraw + 1).toNat = s.rxraw.toNat + 1 := toNat_rxraw_add_one hroom
  have hstored : State.storeByte b { s with inputs := rest } = stored :=
    storeByte_of_lt_cap b (Nat.lt_of_lt_of_le hroom hmax)
  have hstopped (r : ResultCode) (hr : completionFlags r = 0x01) :
      (State.storeByte b { s with inputs := rest }).stripLine.complete r = stopped r := by
    simp only [hstored, State.stripLine, State.complete, stored, stopped, hraw, hr]
  have htake := onRxByte_in_recv (s := { s with inputs := rest }) b hp
  refine ⟨fun hlf => ?eol, fun hne hfull => ?full, fun hne hmore => ?goesOn⟩
  case eol => exact step_rxByte hin (htake.trans (Eq.trans (takeByte_of_lf hlf) (hstopped .eol rfl)))
  all_goals have hother := htake.trans (takeByte_of_ne_lf hne)
  case full =>
    have hlast : s.rxraw + 1 = s.rxmax := BitVec.eq_of_toNat_eq (hraw.trans hfull)
    exact step_rxByte hin (hother.trans (Eq.trans (if_pos hlast) (hstopped .full rfl)))
  case goesOn =>
    have hnotLast : s.rxraw + 1 ≠ s.rxmax := fun heq => by
      rw [← heq, hraw] at hmore
      exact Nat.lt_irrefl _ hmore
    exact step_rxByte hin (hother.trans (Eq.trans (if_neg hnotLast) hstored))

/-- Settles O43: outside RECV the only write is DROP, bit 3 of INTSTAT. -/
theorem rxByteDropped : Obligations.RxByteDropped := by
  unfold Obligations.RxByteDropped
  intro b rest s hin hp
  exact step_rxByte hin (onRxByte_outside_recv b hp)

end Sys2Proof.Proofs
end

