-- ==== Sys2Proof/Proofs/IssueChecks.lean ====
section
/-! PROOFS. The issue checks of a CMD write in their order: the first that fails gives the result
(30_encoding.md R85, 60_exceptions.md R212). -/

namespace Sys2Proof.Machine

/-! The ranges of the commands with arguments, as the machine checks them. -/

@[simp] theorem wf_send (n : BitVec 4) : (Instr.send n).wf = nInRange n := rfl
@[simp] theorem wf_recv (l : BitVec 8) : (Instr.recv l).wf = lInRange l := rfl
@[simp] theorem wf_crc (l : BitVec 8) : (Instr.crc l).wf = scanInRange l := rfl
@[simp] theorem wf_query (n : BitVec 4) (l : BitVec 8) : (Instr.query n l).wf = (nInRange n && lInRange l) := rfl

/-- The role check of 30_encoding.md R85 (its step 3) refuses the command: a SEND in Receive, a RECV in Transmit. -/
def RoleFails (i : Instr) (s : State) : Prop :=
  (i.opcode = 0x04 ∧ s.role ≠ .transmit) ∨ (i.opcode = 0x05 ∧ s.role ≠ .receive)

/-- The check for a byte in flight of 30_encoding.md R85 (its step 4) refuses the command. -/
def PendFails (i : Instr) (s : State) : Prop :=
  (i.opcode = 0x01 ∨ i.opcode = 0x03 ∨ i.opcode = 0x04 ∨ i.opcode = 0x08) ∧ s.txpend = true

@[simp] theorem roleFails_send (n : BitVec 4) (s : State) : RoleFails (.send n) s ↔ s.role ≠ .transmit := by
  simp [RoleFails, Instr.opcode]

@[simp] theorem roleFails_recv (l : BitVec 8) (s : State) : RoleFails (.recv l) s ↔ s.role ≠ .receive := by
  simp [RoleFails, Instr.opcode]

/-- Only SEND and RECV have a role check. -/
theorem not_roleFails {i : Instr} (hsend : i.opcode ≠ 0x04) (hrecv : i.opcode ≠ 0x05) (s : State) :
    ¬ RoleFails i s := by
  rintro (⟨h, -⟩ | ⟨h, -⟩)
  · exact hsend h
  · exact hrecv h

/-- Any command passes the check for a byte in flight when there is none. -/
theorem not_pendFails_of_quiet (i : Instr) {s : State} (hquiet : ¬ s.txpend = true) : ¬ PendFails i s :=
  fun hpend => hquiet hpend.2

/-- DIR.TX, RECV, CRC and CHECK have no check for a byte in flight. -/
theorem not_pendFails {i : Instr} (h : i.opcode = 0x02 ∨ i.opcode = 0x05 ∨ i.opcode = 0x06 ∨ i.opcode = 0x07)
    (s : State) : ¬ PendFails i s := by
  rcases h with h | h | h | h <;> simp [PendFails, h]

/-- The result is none of those of the issue checks. -/
def NoIssueError (c : ResultCode) : Prop := c ≠ .illegal ∧ c ≠ .badArg ∧ c ≠ .role ∧ c ≠ .txPend

theorem noIssueError_none : NoIssueError .none := by simp [NoIssueError]

theorem noIssueError_ok : NoIssueError .ok := by simp [NoIssueError]

/-- The result `c` is that of the first check that refuses the command `i` in the state `s`, after its decoding. -/
inductive FirstFailure (i : Instr) (s : State) : ResultCode → Prop
  | badArg (hwf : i.wf = false) : FirstFailure i s .badArg
  | role (hwf : i.wf = true) (hrole : RoleFails i s) : FirstFailure i s .role
  | txPend (hwf : i.wf = true) (hrole : ¬ RoleFails i s) (hpend : PendFails i s) : FirstFailure i s .txPend
  | passed {c : ResultCode} (hwf : i.wf = true) (hrole : ¬ RoleFails i s) (hpend : ¬ PendFails i s)
      (hc : NoIssueError c) : FirstFailure i s c

/-- The order of the checks, clause by clause: the result that each combination of failures gives. -/
theorem FirstFailure.clauses {i : Instr} {s : State} {c : ResultCode} (h : FirstFailure i s c) :
    (i.wf = false → c = .badArg) ∧
    (i.wf = true → RoleFails i s → c = .role) ∧
    (i.wf = true → ¬ RoleFails i s → PendFails i s → c = .txPend) ∧
    (i.wf = true → ¬ RoleFails i s → ¬ PendFails i s → NoIssueError c) := by
  cases h with
  | badArg hwf => simp [hwf]
  | role hwf hrole => simp [hwf, hrole]
  | txPend hwf hrole hpend => simp [hwf, hrole, hpend]
  | passed hwf hrole hpend hc => simp [hwf, hrole, hpend, hc]

/-- CHECK has results of its own only (42_checksum.md R176). -/
theorem execCheck_noIssueError {s t : State} (h : execCheck s = .next t) : NoIssueError t.rcode := by
  cases h
  split
  · simp [NoIssueError]
  · dsimp only
    split <;> simp [NoIssueError]

/-- Every command's meaning makes its checks in the order of R85. -/
theorem exec_firstFailure {i : Instr} {s t : State} (h : exec i s = .next t) : FirstFailure i s t.rcode := by
  cases i with
  | wake =>
    have hrole : ¬ RoleFails .wake s := not_roleFails (by decide) (by decide) s
    cases h
    split
    case isTrue hpend => exact .txPend rfl hrole ⟨by decide, hpend⟩
    case isFalse hquiet => exact .passed rfl hrole (not_pendFails_of_quiet _ hquiet) noIssueError_none
  | dirTx =>
    cases h
    exact .passed rfl (not_roleFails (by decide) (by decide) s) (not_pendFails (by decide) s) noIssueError_ok
  | dirRx =>
    have hrole : ¬ RoleFails .dirRx s := not_roleFails (by decide) (by decide) s
    cases h
    split
    case isTrue hpend => exact .txPend rfl hrole ⟨by decide, hpend⟩
    case isFalse hquiet => exact .passed rfl hrole (not_pendFails_of_quiet _ hquiet) noIssueError_ok
  | send n =>
    cases h
    split
    case isTrue hn => exact .badArg (by simpa using hn)
    case isFalse hn =>
      have hwf : (Instr.send n).wf = true := by simpa using hn
      split
      case isTrue hrole => exact .role hwf (by simpa using hrole)
      case isFalse hrole =>
        have hrole : ¬ RoleFails (.send n) s := by simpa using hrole
        split
        case isTrue hpend => exact .txPend hwf hrole ⟨by simp [Instr.opcode], hpend⟩
        case isFalse hquiet => exact .passed hwf hrole (not_pendFails_of_quiet _ hquiet) noIssueError_none
  | recv l =>
    cases h
    split
    case isTrue hl => exact .badArg (by simpa using hl)
    case isFalse hl =>
      have hwf : (Instr.recv l).wf = true := by simpa using hl
      split
      case isTrue hrole => exact .role hwf (by simpa using hrole)
      case isFalse hrole =>
        exact .passed hwf (by simpa using hrole) (not_pendFails (by simp [Instr.opcode]) s) noIssueError_none
  | crc l =>
    cases h
    split
    case isTrue hl => exact .badArg (by simpa using hl)
    case isFalse hl =>
      exact .passed (by simpa using hl) (not_roleFails (by simp [Instr.opcode]) (by simp [Instr.opcode]) s)
        (not_pendFails (by simp [Instr.opcode]) s) noIssueError_ok
  | check =>
    exact .passed rfl (not_roleFails (by decide) (by decide) s) (not_pendFails (by decide) s)
      (execCheck_noIssueError h)
  | query n l =>
    have hrole : ¬ RoleFails (.query n l) s :=
      not_roleFails (by simp [Instr.opcode]) (by simp [Instr.opcode]) s
    cases h
    split
    case isTrue hn =>
      have hn : nInRange n = false := by simpa using hn
      exact .badArg (by simp [hn])
    case isFalse hn =>
      have hn : nInRange n = true := by simpa using hn
      split
      case isTrue hl =>
        have hl : lInRange l = false := by simpa using hl
        exact .badArg (by simp [hl])
      case isFalse hl =>
        have hl : lInRange l = true := by simpa using hl
        have hwf : (Instr.query n l).wf = true := by simp [hn, hl]
        split
        case isTrue hpend => exact .txPend hwf hrole ⟨by simp [Instr.opcode], hpend⟩
        case isFalse hquiet => exact .passed hwf hrole (not_pendFails_of_quiet _ hquiet) noIssueError_none

end Sys2Proof.Machine

namespace Sys2Proof.Proofs

open Sys2Proof.Machine

/-- Settles O17: while busy CMD is locked; while idle the word is issued, and either the decoder refuses it or the
command's checks decide, in their order. -/
theorem firstFailingCheckDecides : Obligations.FirstFailingCheckDecides := by
  unfold Obligations.FirstFailingCheckDecides
  intro v off rest s hin hoff
  refine ⟨fun hbusy => ?busy, fun hidle => ?idle⟩
  case busy =>
    exact step_of_handle hin (writeReg_locked (Reg.lockedWhileBusy_ofOffset (.inl hoff)) v hbusy)
  case idle =>
    rw [step_cmdWrite_of_idle hidle hin hoff]
    rcases issue_cases v { s with inputs := rest } with ⟨why, hdec, hissue⟩ | ⟨i, hdec, hissue⟩
    · rw [hissue, hdec]
      exact ⟨_, rfl, rfl⟩
    · obtain ⟨u, hexec⟩ := exec_cases i { s with inputs := rest }
      rw [hissue, hexec, hdec]
      exact ⟨_, rfl, (exec_firstFailure hexec).clauses⟩

end Sys2Proof.Proofs
end

