-- ==== Sys2Proof/Proofs/TransportErrors.lean ====
section
/-! PROOFS. What a transport error does: while busy it ends the command (60_exceptions.md R210), while idle it is
flagged (R211). -/

namespace Sys2Proof.Machine

/-- A step that takes a `terr`. -/
theorem step_terr {s u : State} {rest : List Input} (h : s.inputs = .terr :: rest)
    (hu : onTerr { s with inputs := rest } = u) : step s = .next (u.record .terr) :=
  step_of_handle h (congrArg Host.Outcome.next hu)

/-- An armed receive ends with the stripped length of what it took (R210). -/
theorem onTerr_in_recv {s : State} (hp : s.phase = .recv) :
    onTerr s = s.stripLine.releaseLine.complete .transport := by
  simp [onTerr, hp]

/-- Any other running command ends with the receive length as it was (R210). -/
theorem onTerr_busy_outside_recv {s : State} (hb : s.phase ≠ .idle) (hp : s.phase ≠ .recv) :
    onTerr s = s.releaseLine.complete .transport := by
  simp [onTerr, hb, hp]

/-- While idle no command completes (R211). -/
theorem onTerr_idle {s : State} (hp : s.phase = .idle) : onTerr s = { s.setFlag .terr with txpend := false } := by
  simp [onTerr, (busy_eq_false s).2 hp]

end Sys2Proof.Machine

namespace Sys2Proof.Proofs

open Sys2Proof.Machine

/-- Settles O48: the running command is a receive, whose bytes are stripped, or another one; while idle there is none
to end. -/
theorem transportError : Obligations.TransportError := by
  unfold Obligations.TransportError
  intro rest s hin
  refine ⟨fun hbusy => ?busy, fun hidle => ?idle⟩
  case busy =>
    by_cases hrecv : s.phase = .recv
    · rw [if_pos hrecv]
      exact step_terr hin (onTerr_in_recv hrecv)
    · rw [if_neg hrecv]
      exact step_terr hin (onTerr_busy_outside_recv hbusy hrecv)
  case idle => exact step_terr hin (onTerr_idle hidle)

end Sys2Proof.Proofs
end

