-- ==== Sys2Proof/Proofs/Reset.lean ====
section
/-! PROOFS. The state after a reset, and what its registers read as (70_reset_and_hazards.md R230, 20_memory.md R54). -/

namespace Sys2Proof.Machine

/-- The 32 word offsets from 0x100 on select the words of the receive buffer (20_memory.md R54). -/
theorem Reg.ofOffset_rxbuf : ∀ k : Fin 32, Reg.ofOffset (BitVec.ofNat 12 (0x100 + 4 * k.val)) = .rxbuf k := by
  decide

/-- A buffer with no byte listed reads as zero words. -/
@[simp] theorem Memory.readWord_nil (a : Nat) : Memory.readWord [] a = 0 := by
  simp only [Memory.readWord, Memory.read_nil]
  rfl

/-- The trace entry of a step is seen by no register. -/
@[simp] theorem regValue_record (off : Offset) (i : Input) (s : State) :
    (s.record i).regValue off = s.regValue off := by
  unfold State.regValue
  cases Reg.ofOffset off <;> rfl

/-- After a reset in any state every register reads as in the state after reset: no register shows the pending inputs
or the trace. -/
@[simp] theorem regValue_onReset (off : Offset) (s : State) :
    (onReset s).regValue off = State.reset.regValue off := by
  unfold State.regValue
  cases Reg.ofOffset off <;> rfl

/-- The outputs after a reset: the line is the peripheral's, in Receive, and no flag is pending (R230). -/
theorem lines_onReset (s : State) :
    (onReset s).lines = { pinMode := .periph, gpioLevel := .low, role := .receive, irq := false } := by
  have hirq : (onReset s).irq = false := by simp [State.irq, onReset, State.reset]
  rw [State.lines, hirq]
  rfl

/-- Every word of the receive buffer reads as 0 after reset. -/
theorem regValue_reset_rxbuf {k : Nat} (hk : k < 32) :
    State.reset.regValue (BitVec.ofNat 12 (0x100 + 4 * k)) = 0 := by
  have hreg : Reg.ofOffset (BitVec.ofNat 12 (0x100 + 4 * k)) = .rxbuf ⟨k, hk⟩ := Reg.ofOffset_rxbuf ⟨k, hk⟩
  calc State.reset.regValue (BitVec.ofNat 12 (0x100 + 4 * k))
    _ = Memory.readWord [] (4 * k) := by rw [State.regValue, hreg]; rfl
    _ = 0 := Memory.readWord_nil (4 * k)

/-- The registers outside the receive buffer after reset, in the order of the map of 20_memory.md R54. -/
theorem regValue_reset_named :
    State.reset.regValue 0x000 = 0x53500001 ∧ State.reset.regValue 0x004 = 0 ∧ State.reset.regValue 0x008 = 0 ∧
      State.reset.regValue 0x00C = 0 ∧ State.reset.regValue 0x010 = 0 ∧ State.reset.regValue 0x014 = 0x23282EE0 ∧
      State.reset.regValue 0x018 = 0x0000FFFF ∧ State.reset.regValue 0x01C = 0x0000FFFF ∧
      State.reset.regValue 0x020 = 0 ∧ State.reset.regValue 0x024 = 0 ∧ State.reset.regValue 0x028 = 0 ∧
      State.reset.regValue 0x030 = 0 ∧ State.reset.regValue 0x034 = 0 := by
  decide

end Sys2Proof.Machine

namespace Sys2Proof.Proofs

open Sys2Proof.Machine

/-- Settles O50: the step is `onReset` and its trace entry, which leaves of the old state the trace and the inputs still
to come; neither reaches an output line, a buffer or a register. -/
theorem resetSetsEveryField : Obligations.ResetSetsEveryField := by
  unfold Obligations.ResetSetsEveryField
  intro rest s hin
  refine ⟨(onReset { s with inputs := rest }).record .reset, step_of_handle hin rfl, rfl,
    lines_onReset { s with inputs := rest }, fun j => ⟨rfl, rfl⟩, ?registers⟩
  case registers =>
    have hmap := And.intro regValue_reset_named fun k (hk : k < 32) => regValue_reset_rxbuf hk
    simpa only [regValue_record, regValue_onReset, and_assoc] using hmap

end Sys2Proof.Proofs
end

