-- ==== Sys2Proof/Proofs/Effects.lean ====
section
/-! PROOFS. What issuing a command, writing a register and handling an input can do, said once for every later proof:
one constructor per branch of the rules, with the conditions under which the branch is taken. -/

namespace Sys2Proof.Machine

/-- The outcomes of a command issued in the state `s` (30_encoding.md R85): refused by one of its checks, or the effect
of its own rule. -/
inductive CommandEffect (s : State) : Instr → State → Prop
  | refused {i : Instr} {c : ResultCode} (hc : c = .badArg ∨ c = .role ∨ c = .txPend) :
      CommandEffect s i ((s.issued i.opcode).complete c)
  | wake (hquiet : s.txpend = false) :
      CommandEffect s .wake (State.startBreak { s.issued 0x01 with curop := 0x01 })
  | dirTx : CommandEffect s .dirTx (State.complete .ok { s.issued 0x02 with role := .transmit })
  | dirRx (hquiet : s.txpend = false) :
      CommandEffect s .dirRx (State.complete .ok { s.issued 0x03 with role := .receive })
  | send {n : BitVec 4} (hn : nInRange n = true) (hrole : s.role = .transmit) (hquiet : s.txpend = false) :
      CommandEffect s (.send n) (State.startSend n { s.issued 0x04 with curop := 0x04 })
  | recv {l : BitVec 8} (hl : lInRange l = true) (hrole : s.role = .receive) :
      CommandEffect s (.recv l) (State.startRecv l { s.issued 0x05 with curop := 0x05 })
  | crc {l : BitVec 8} (hl : scanInRange l = true) :
      CommandEffect s (.crc l)
        (State.complete .ok { s.issued 0x06 with crcval := crcScan s.rxbuf s.crcinit l.toNat })
  | checkMalformed (hlen : s.rxlen.toNat < 3) : CommandEffect s .check ((s.issued 0x07).complete .malformed)
  | check {c : ResultCode} (hlen : 3 ≤ s.rxlen.toNat) (hc : c = .ok ∨ c = .crcMismatch) :
      CommandEffect s .check
        (State.complete c { s.issued 0x07 with crcval := crcScan s.rxbuf s.crcinit (s.rxlen.toNat - 3) })
  | query {n : BitVec 4} {l : BitVec 8} (hn : nInRange n = true) (hl : lInRange l = true)
      (hquiet : s.txpend = false) :
      CommandEffect s (.query n l)
        (State.startBreak { s.issued 0x08 with curop := 0x08, txn := n, txidx := 0, rxmax := l })

/-- The outcomes of a register write (20_memory.md R53 to R66). -/
inductive WriteEffect (s : State) : Reg → Word → State → Prop
  | locked {r : Reg} {v : Word} (hr : r.lockedWhileBusy = true) (hbusy : s.phase ≠ .idle) :
      WriteEffect s r v (s.setFlag .ovr)
  | ignored {r : Reg} {v : Word} (hr : r.ignoresWrites = true) : WriteEffect s r v s
  | inten {v : Word} : WriteEffect s .inten v (writeInten v s)
  | intstat {v : Word} : WriteEffect s .intstat v (writeIntstat v s)
  | timing {v : Word} (hidle : s.phase = .idle) : WriteEffect s .timing v (writeTiming v s)
  | crcinit {v : Word} (hidle : s.phase = .idle) : WriteEffect s .crcinit v (writeCrcinit v s)
  | crcval {v : Word} (hidle : s.phase = .idle) : WriteEffect s .crcval v (writeCrcval v s)
  | crcin {v : Word} (hidle : s.phase = .idle) : WriteEffect s .crcin v (writeCrcin v s)
  | txd {r : Reg} {v : Word} {a : Nat} (hidle : s.phase = .idle)
      (hr : (r = .txd0 ∧ a = 0) ∨ (r = .txd1 ∧ a = 4)) :
      WriteEffect s r v (writeTxd a v s)
  | illegal {v : Word} (hidle : s.phase = .idle) :
      WriteEffect s .cmd v ((s.issued (opField v)).complete .illegal)
  | command {v : Word} {i : Instr} {t : State} (hidle : s.phase = .idle) (hdec : decode v = .command i)
      (hcmd : CommandEffect s i t) : WriteEffect s .cmd v t

/-- The outcomes of an input. -/
inductive InputEffect (s : State) : Input → State → Prop
  | reset : InputEffect s .reset (onReset s)
  | terrRecv (hp : s.phase = .recv) : InputEffect s .terr (s.stripLine.releaseLine.complete .transport)
  | terrBusy (hbusy : s.phase ≠ .idle) (hp : s.phase ≠ .recv) :
      InputEffect s .terr (s.releaseLine.complete .transport)
  | terrIdle (hidle : s.phase = .idle) : InputEffect s .terr { s.setFlag .terr with txpend := false }
  | dropped {b : Byte} (hp : s.phase ≠ .recv) : InputEffect s (.rxByte b) (s.setFlag .drop)
  | lineEnd {b : Byte} (hp : s.phase = .recv) (hb : b = 0x0A) :
      InputEffect s (.rxByte b) ((s.storeByte b).stripLine.complete .eol)
  | filled {b : Byte} (hp : s.phase = .recv) (hb : b ≠ 0x0A) (hlast : s.rxraw + 1 = s.rxmax) :
      InputEffect s (.rxByte b) ((s.storeByte b).stripLine.complete .full)
  | stored {b : Byte} (hp : s.phase = .recv) (hb : b ≠ 0x0A) (hmore : s.rxraw + 1 ≠ s.rxmax) :
      InputEffect s (.rxByte b) (s.storeByte b)
  | noneInFlight (hquiet : s.txpend = false) : InputEffect s .txDone s
  | flushed (hp : s.phase ≠ .send) (hpend : s.txpend = true) : InputEffect s .txDone { s with txpend := false }
  | sentNext (hp : s.phase = .send) (hpend : s.txpend = true) (hmore : s.txidx.toNat < s.txn.toNat) :
      InputEffect s .txDone (State.sendNext { s with txpend := false })
  | sendDone (hp : s.phase = .send) (hpend : s.txpend = true) (hlast : s.txn.toNat ≤ s.txidx.toNat)
      (hop : s.curop = 0x04) : InputEffect s .txDone (State.complete .ok { s with txpend := false })
  | turned (hp : s.phase = .send) (hpend : s.txpend = true) (hlast : s.txn.toNat ≤ s.txidx.toNat)
      (hop : s.curop = 0x08) : InputEffect s .txDone (State.turnaround { s with txpend := false })
  | sendOther (hp : s.phase = .send) (hpend : s.txpend = true) (hsend : s.curop ≠ 0x04) (hquery : s.curop ≠ 0x08) :
      InputEffect s .txDone { s with txpend := false }
  | tickIdle (hidle : s.phase = .idle) : InputEffect s .tick s
  | counted (hbusy : s.phase ≠ .idle) (hc : s.cnt ≠ 1) : InputEffect s .tick s.countDown
  | breakEnd (hp : s.phase = .brk) (hc : s.cnt = 1) : InputEffect s .tick s.endBreak
  | wakeDone (hp : s.phase = .mark) (hc : s.cnt = 1) (hop : s.curop = 0x01) : InputEffect s .tick (s.complete .ok)
  | queryMarked (hp : s.phase = .mark) (hc : s.cnt = 1) (hop : s.curop = 0x08) :
      InputEffect s .tick s.queryAfterMark
  | markOther (hp : s.phase = .mark) (hc : s.cnt = 1) (hwake : s.curop ≠ 0x01) (hquery : s.curop ≠ 0x08) :
      InputEffect s .tick s.countDown
  | sendTimeout (hp : s.phase = .send) (hc : s.cnt = 1) : InputEffect s .tick (s.complete .txTimeout)
  | recvTimeout {c : ResultCode} (hp : s.phase = .recv) (hc : s.cnt = 1)
      (hcode : c = if s.stripLine.rxlen = 0 then .noDev else .partialLine) :
      InputEffect s .tick (s.stripLine.complete c)
  | read {off : Offset} : InputEffect s (.host (.read off)) (s.answer off (s.regValue off))
  | write {off : Offset} {v : Word} {t : State} (hwrite : WriteEffect s (Reg.ofOffset off) v t) :
      InputEffect s (.host (.write off v)) t

/-- CHECK compares where there is a code to compare with (42_checksum.md R176). -/
theorem execCheck_effect {s t : State} (h : execCheck s = .next t) : CommandEffect s .check t := by
  cases h
  split
  case isTrue hlen => exact .checkMalformed hlen
  case isFalse hlen =>
    have hlen : 3 ≤ s.rxlen.toNat := Nat.not_lt.1 hlen
    dsimp only
    split
    · exact .check hlen (.inl rfl)
    · exact .check hlen (.inr rfl)

/-- A command is refused at its first failing check, and has its effect after its last. -/
theorem exec_effect {i : Instr} {s t : State} (h : exec i s = .next t) : CommandEffect s i t := by
  cases i with
  | wake =>
    cases h
    split
    · exact .refused (.inr (.inr rfl))
    case isFalse hquiet => exact .wake (by simpa using hquiet)
  | dirTx => cases h; exact .dirTx
  | dirRx =>
    cases h
    split
    · exact .refused (.inr (.inr rfl))
    case isFalse hquiet => exact .dirRx (by simpa using hquiet)
  | send n =>
    cases h
    split
    · exact .refused (i := .send n) (.inl rfl)
    case isFalse hn =>
    split
    · exact .refused (i := .send n) (.inr (.inl rfl))
    case isFalse hrole =>
    split
    · exact .refused (i := .send n) (.inr (.inr rfl))
    case isFalse hquiet => exact .send (by simpa using hn) (by simpa using hrole) (by simpa using hquiet)
  | recv l =>
    cases h
    split
    · exact .refused (i := .recv l) (.inl rfl)
    case isFalse hl =>
    split
    · exact .refused (i := .recv l) (.inr (.inl rfl))
    case isFalse hrole => exact .recv (by simpa using hl) (by simpa using hrole)
  | crc l =>
    cases h
    split
    · exact .refused (i := .crc l) (.inl rfl)
    case isFalse hl => exact .crc (by simpa using hl)
  | check => exact execCheck_effect h
  | query n l =>
    cases h
    split
    · exact .refused (i := .query n l) (.inl rfl)
    case isFalse hn =>
    split
    · exact .refused (i := .query n l) (.inl rfl)
    case isFalse hl =>
    split
    · exact .refused (i := .query n l) (.inr (.inr rfl))
    case isFalse hquiet => exact .query (by simpa using hn) (by simpa using hl) (by simpa using hquiet)

theorem writeCmd_effect {v : Word} {s t : State} (h : writeCmd v s = .next t) : WriteEffect s .cmd v t := by
  rcases writeCmd_cases v s with ⟨hidle, hw⟩ | ⟨hbusy, hw⟩ <;> rw [hw] at h
  · rcases issue_cases v s with ⟨why, -, hi⟩ | ⟨i, hdec, hi⟩ <;> rw [hi] at h
    · cases h; exact .illegal hidle
    · exact .command hidle hdec (exec_effect h)
  · cases h; exact .locked rfl hbusy

/-- A register that is locked while busy: the lock, or the register's own write rule. -/
theorem whenIdle_effect {r : Reg} {v : Word} {s : State} {f : State → State}
    (hr : r.lockedWhileBusy = true) (hf : s.phase = .idle → WriteEffect s r v (f s)) :
    WriteEffect s r v (whenIdle f s) := by
  rcases whenIdle_cases f s with ⟨hidle, hw⟩ | ⟨hbusy, hw⟩ <;> rw [hw]
  · exact hf hidle
  · exact .locked hr hbusy

theorem writeReg_effect {r : Reg} {v : Word} {s t : State} (h : writeReg r v s = .next t) :
    WriteEffect s r v t := by
  cases r
  case cmd => exact writeCmd_effect h
  all_goals cases h
  case timing => exact whenIdle_effect rfl .timing
  case crcinit => exact whenIdle_effect rfl .crcinit
  case crcval => exact whenIdle_effect rfl .crcval
  case crcin => exact whenIdle_effect rfl .crcin
  case inten => exact .inten
  case intstat => exact .intstat
  case txd0 => exact whenIdle_effect rfl fun hidle => .txd hidle (.inl ⟨rfl, rfl⟩)
  case txd1 => exact whenIdle_effect rfl fun hidle => .txd hidle (.inr ⟨rfl, rfl⟩)
  all_goals exact .ignored rfl

/-- A counter is at zero after a tick exactly when it stood at 1. -/
theorem countDown_eq_zero_iff (s : State) : s.countDown.cnt = 0 ↔ s.cnt = 1 := by
  rw [countDown_cnt]
  exact sub_eq_zero

theorem onTick_effect (s : State) : InputEffect s .tick (onTick s) := by
  by_cases hidle : s.phase = .idle
  · simp only [onTick, hidle]
    exact .tickIdle hidle
  by_cases hc : s.cnt = 1
  case neg =>
    have hleft : s.countDown.cnt ≠ 0 := mt (countDown_eq_zero_iff s).1 hc
    have hcount : onTick s = s.countDown := by
      cases hp : s.phase <;> simp_all [onTick, tickBreak, tickMark, tickSend, tickRecv]
    rw [hcount]
    exact .counted hidle hc
  case pos =>
    have hzero : s.countDown.cnt = 0 := (countDown_eq_zero_iff s).2 hc
    cases hp : s.phase with
    | idle => exact absurd hp hidle
    | brk =>
      have hend : onTick s = s.endBreak := onTick_break_last hp hc
      rw [hend]
      exact .breakEnd hp hc
    | mark =>
      have hend : onTick s = s.countDown.endMark := by simp only [onTick, hp, tickMark, if_pos hzero]
      rw [hend]
      rcases endMark_cases s.countDown with ⟨hop, h⟩ | ⟨hop, h⟩ | ⟨hwake, hquery, h⟩ <;> rw [h]
      · exact .wakeDone hp hc hop
      · exact .queryMarked hp hc hop
      · exact .markOther hp hc hwake hquery
    | send =>
      have hend : onTick s = s.countDown.complete .txTimeout := by simp only [onTick, hp, tickSend, if_pos hzero]
      rw [hend]
      exact .sendTimeout hp hc
    | recv =>
      have hend : onTick s = s.countDown.stripLine.complete
          (if s.countDown.stripLine.rxlen = 0 then .noDev else .partialLine) := by
        simp only [onTick, hp, tickRecv, if_pos hzero]
        split <;> rfl
      rw [hend]
      exact .recvTimeout hp hc rfl

theorem onTxDone_effect (s : State) : InputEffect s .txDone (onTxDone s) := by
  cases hpend : s.txpend with
  | false =>
    rw [onTxDone_of_none_inFlight hpend]
    exact .noneInFlight hpend
  | true =>
    by_cases hp : s.phase = .send
    case neg =>
      rw [onTxDone_outside_send hp hpend]
      exact .flushed hp hpend
    case pos =>
      rw [onTxDone_in_send hp hpend]
      split
      case isTrue hmore => exact .sentNext hp hpend hmore
      case isFalse hlast =>
        have hlast := Nat.not_lt.1 hlast
        rcases endSend_cases { s with txpend := false } with ⟨hop, h⟩ | ⟨hop, h⟩ | ⟨hsend, hquery, h⟩
          <;> rw [h]
        · exact .sendDone hp hpend hlast hop
        · exact .turned hp hpend hlast hop
        · exact .sendOther hp hpend hsend hquery

theorem onRxByte_effect (b : Byte) (s : State) : InputEffect s (.rxByte b) (onRxByte b s) := by
  by_cases hp : s.phase = .recv
  case neg =>
    rw [onRxByte_outside_recv b hp]
    exact .dropped hp
  case pos =>
    rw [onRxByte_in_recv b hp]
    by_cases hb : b = 0x0A
    · rw [takeByte_of_lf hb]
      exact .lineEnd hp hb
    · rw [takeByte_of_ne_lf hb]
      split
      case isTrue hlast => exact .filled hp hb hlast
      case isFalse hmore => exact .stored hp hb hmore

theorem onTerr_effect (s : State) : InputEffect s .terr (onTerr s) := by
  by_cases hidle : s.phase = .idle
  · rw [onTerr_idle hidle]
    exact .terrIdle hidle
  by_cases hp : s.phase = .recv
  · rw [onTerr_in_recv hp]
    exact .terrRecv hp
  · rw [onTerr_busy_outside_recv hidle hp]
    exact .terrBusy hidle hp

/-- Handling an input has one of its effects. -/
theorem handle_effect {i : Input} {s t : State} (h : handle i s = .next t) : InputEffect s i t := by
  cases i with
  | reset => cases h; exact .reset
  | terr => cases h; exact onTerr_effect s
  | rxByte b => cases h; exact onRxByte_effect b s
  | txDone => cases h; exact onTxDone_effect s
  | tick => cases h; exact onTick_effect s
  | host a =>
    cases a with
    | read off => cases h; exact .read
    | write off v => exact .write (writeReg_effect h)

/-- Every step: nothing pending and nothing changed, or the effect of the next input, recorded. -/
theorem step_effect {s t : State} (h : step s = .next t) :
    (s.inputs = [] ∧ t = s) ∨
      ∃ i rest u, s.inputs = i :: rest ∧ InputEffect { s with inputs := rest } i u ∧ t = u.record i := by
  rcases step_cases h with hnil | ⟨i, rest, u, hin, hu, ht⟩
  · exact .inl hnil
  · exact .inr ⟨i, rest, u, hin, handle_effect hu, ht⟩

end Sys2Proof.Machine
end

