-- ==== Sys2Proof/Proofs/Invariant.lean ====
section
/-! PROOFS. The invariant of 10_state.md R26: it holds after reset and every effect of an input keeps it. -/

namespace Sys2Proof.Machine

/-- The clauses of `Inv` that name no phase and no running command: what a completion leaves to be shown. -/
structure Bounded (s : State) : Prop where
  txn_le : s.txn.toNat ≤ 8
  txidx_le : s.txidx.toNat ≤ s.txn.toNat
  rxlen_le : s.rxlen.toNat ≤ s.rxraw.toNat
  rxraw_le : s.rxraw.toNat ≤ 128
  rxmax_le : s.rxmax.toNat ≤ 128
  break_floor : 12000 ≤ s.breakUs.toNat
  mark_floor : 8300 ≤ s.markUs.toNat
  receive_flushed : s.role = .receive → s.txpend = false
  rxbuf_wf : s.rxbuf.wf Config.rxCap = true
  txbuf_wf : s.txbuf.wf Config.txCap = true

theorem Inv.bounded {s : State} (h : Inv s) : Bounded s := { h with }

/-- A stripped length is within the bytes stored. -/
theorem Bounded.stripLine {s : State} (h : Bounded s) : Bounded s.stripLine :=
  { h with
    rxlen_le := by
      rw [stripLine_rxlen_toNat]
      exact strip_le s.rxbuf s.rxraw.toNat }

/-- The pin is the peripheral's at low level, as in every phase but BREAK (10_state.md R26(b)). -/
structure LineReleased (s : State) : Prop where
  periph : s.pinmode = .periph
  low : s.level = .low

theorem Inv.lineReleased {s : State} (h : Inv s) (hp : s.phase ≠ .brk) : LineReleased s where
  periph := by
    cases hm : s.pinmode with
    | periph => rfl
    | gpio => exact absurd (h.gpio_iff.1 hm) hp
  low := by
    cases hl : s.level with
    | low => rfl
    | high => exact absurd (h.high_iff.1 hl) hp

/-- In a phase other than BREAK, clause (b) says that the line is released. -/
theorem LineReleased.gpio_iff {s : State} (h : LineReleased s) (hp : s.phase ≠ .brk) :
    s.pinmode = .gpio ↔ s.phase = .brk := by simp [h.periph, hp]

theorem LineReleased.high_iff {s : State} (h : LineReleased s) (hp : s.phase ≠ .brk) :
    s.level = .high ↔ s.phase = .brk := by simp [h.low, hp]

/-! The invariant of a state in each phase it may be entered in. -/

theorem inv_of_idle {s : State} (hp : s.phase = .idle) (hop : s.curop = 0) (hc : s.cnt = 0) (hb : Bounded s)
    (hl : LineReleased s) : Inv s :=
  { hb with
    idle_iff := by simp [hp, hop]
    gpio_iff := hl.gpio_iff (by simp [hp])
    high_iff := hl.high_iff (by simp [hp])
    cnt_busy := fun h => absurd hp h
    cnt_idle := fun _ => hc
    running_result := fun h => absurd hp h
    send_index := by simp [hp]
    send_line := by simp [hp]
    recv_line := by simp [hp]
    recv_len := by simp [hp]
    wake_flushed := by simp [hp]
    wake_op := by simp [hp]
    send_op := by simp [hp]
    recv_op := by simp [hp]
    query_args := by simp [hop]
    send_timer := by simp [hp]
    recv_timer := by simp [hp] }

/-- A completion leaves the state idle (60_exceptions.md R203). -/
theorem inv_complete {s : State} (hb : Bounded s) (hl : LineReleased s) {c : ResultCode} : Inv (s.complete c) :=
  inv_of_idle rfl rfl rfl { hb with } { hl with }

/-- The state after reset meets the invariant (70_reset_and_hazards.md R230). -/
theorem inv_reset : Inv State.reset :=
  inv_of_idle rfl rfl rfl (by constructor <;> simp [State.reset, Memory.wf, Memory.wfFrom]) ⟨rfl, rfl⟩

/-- What a running command keeps in every phase: its opcode in `curop` and `rop`, no result yet, and a QUERY's
arguments. -/
structure CommandRuns (s : State) : Prop where
  rcode : s.rcode = .none
  rop : s.rop = s.curop
  query_args : s.curop = 0x08 → 1 ≤ s.txn.toNat ∧ 1 ≤ s.rxmax.toNat

theorem Inv.commandRuns {s : State} (h : Inv s) (hbusy : s.phase ≠ .idle) : CommandRuns s where
  rcode := (h.running_result hbusy).1
  rop := (h.running_result hbusy).2
  query_args := h.query_args

/-- A 16-bit duration fits the counter. -/
theorem toNat_setWidth_duration (d : Half) : (d.setWidth 32 : Word).toNat = d.toNat :=
  BitVec.toNat_setWidth_of_le (by decide)

/-- A WAKE or QUERY enters BREAK (40_wake_duplex.md R101). -/
theorem inv_startBreak {s : State} (hb : Bounded s) (hr : CommandRuns s) (hop : s.curop = 0x01 ∨ s.curop = 0x08)
    (hquiet : s.txpend = false) : Inv s.startBreak :=
  have hcur : s.curop ≠ 0 := by rcases hop with h | h <;> simp [h]
  { hb with
    idle_iff := iff_of_false (by simp) hcur
    gpio_iff := by simp
    high_iff := by simp
    cnt_busy := fun _ => by
      have := hb.break_floor
      rw [startBreak_cnt, toNat_setWidth_duration]
      omega
    cnt_idle := by simp
    running_result := fun _ => ⟨hr.rcode, hr.rop⟩
    send_index := by simp
    send_line := by simp
    recv_line := by simp
    recv_len := by simp
    wake_flushed := fun _ => hquiet
    wake_op := fun _ => hop
    send_op := by simp
    recv_op := by simp
    query_args := hr.query_args
    send_timer := by simp
    recv_timer := by simp }

/-- The end of break enters MARK with the pin released (R102). -/
theorem inv_endBreak {s : State} (h : Inv s) (hp : s.phase = .brk) : Inv s.endBreak :=
  have hbusy : s.phase ≠ .idle := by simp [hp]
  { h with
    idle_iff := by simpa [hp] using h.idle_iff
    gpio_iff := by simp
    high_iff := by simp
    cnt_busy := fun _ => by
      have := h.mark_floor
      rw [endBreak_cnt, toNat_setWidth_duration]
      omega
    cnt_idle := by simp
    running_result := fun _ => h.running_result hbusy
    send_index := by simp
    send_line := by simp
    recv_line := by simp
    recv_len := by simp
    wake_flushed := fun _ => h.wake_flushed (.inl hp)
    wake_op := fun _ => h.wake_op (.inl hp)
    send_op := by simp
    recv_op := by simp
    send_timer := by simp
    recv_timer := by simp }

/-- A SEND or QUERY enters SEND with its first byte in flight (41_transfer.md R131). -/
theorem inv_startSend {s : State} {n : BitVec 4} (hb : Bounded s) (hl : LineReleased s) (hr : CommandRuns s)
    (hop : s.curop = 0x04 ∨ s.curop = 0x08) (hrole : s.role = .transmit) (hn : nInRange n = true) :
    Inv (s.startSend n) :=
  have hcur : s.curop ≠ 0 := by rcases hop with h | h <;> simp [h]
  have hn := (nInRange_iff n).1 hn
  { hb with
    idle_iff := iff_of_false (by simp) hcur
    gpio_iff := LineReleased.gpio_iff { hl with } (by simp)
    high_iff := LineReleased.high_iff { hl with } (by simp)
    cnt_busy := by simp
    cnt_idle := by simp
    txn_le := hn.2
    txidx_le := by simpa using hn.1
    running_result := fun _ => ⟨hr.rcode, hr.rop⟩
    receive_flushed := by simp [hrole]
    send_index := by simp
    send_line := fun _ => ⟨hrole, rfl⟩
    recv_line := by simp
    recv_len := by simp
    wake_flushed := by simp
    wake_op := by simp
    send_op := fun _ => hop
    recv_op := by simp
    query_args := fun h => ⟨hn.1, (hr.query_args h).2⟩
    send_timer := by simp
    recv_timer := by simp }

/-- A RECV or QUERY enters RECV with nothing stored (41_transfer.md R142). -/
theorem inv_startRecv {s : State} {l : BitVec 8} (hb : Bounded s) (hl : LineReleased s) (hr : CommandRuns s)
    (hop : s.curop = 0x05 ∨ s.curop = 0x08) (hrole : s.role = .receive) (hlen : lInRange l = true) :
    Inv (s.startRecv l) :=
  have hcur : s.curop ≠ 0 := by rcases hop with h | h <;> simp [h]
  have hlen := (lInRange_iff l).1 hlen
  { hb with
    idle_iff := iff_of_false (by simp) hcur
    gpio_iff := LineReleased.gpio_iff { hl with } (by simp)
    high_iff := LineReleased.high_iff { hl with } (by simp)
    cnt_busy := by simp
    cnt_idle := by simp
    rxlen_le := by simp
    rxraw_le := by simp
    rxmax_le := hlen.2
    running_result := fun _ => ⟨hr.rcode, hr.rop⟩
    send_index := by simp
    send_line := by simp
    recv_line := fun _ => ⟨hrole, hlen.1, hlen.1⟩
    recv_len := by simp
    wake_flushed := by simp
    wake_op := by simp
    send_op := by simp
    recv_op := fun _ => hop
    query_args := fun h => ⟨(hr.query_args h).1, hlen.1⟩
    send_timer := by simp
    recv_timer := by simp }

/-- An earlier tick of a running command (40_wake_duplex.md R104, 41_transfer.md R135, R144). -/
theorem inv_countDown {s : State} (h : Inv s) (hbusy : s.phase ≠ .idle) (hc : s.cnt ≠ 1) : Inv s.countDown :=
  have hpos := h.cnt_busy hbusy
  have hle : s.countDown.cnt.toNat + 1 = s.cnt.toNat := by
    rw [countDown_cnt]
    bv_omega
  have htwo : s.cnt.toNat ≠ 1 := fun hone => hc (BitVec.eq_of_toNat_eq hone)
  { h with
    cnt_busy := fun _ => by omega
    cnt_idle := fun hp => absurd hp hbusy
    send_timer := fun hp => by
      have := h.send_timer hp
      omega
    recv_timer := fun hp => by
      have := h.recv_timer hp
      omega }

/-- A byte stored within the buffer and below the last place (41_transfer.md R143). -/
theorem Bounded.storeByte {s : State} (h : Inv s) (hp : s.phase = .recv) (b : Byte) : Bounded (s.storeByte b) :=
  have hroom := (h.recv_line hp).2.2
  { h.bounded with
    rxlen_le := by rw [storeByte_rxlen, h.recv_len hp]; exact Nat.zero_le _
    rxraw_le := by
      have := h.rxmax_le
      rw [storeByte_rxraw, toNat_rxraw_add_one hroom]
      omega
    rxbuf_wf := storeByte_rxbuf_wf h.rxbuf_wf b }

theorem inv_storeByte {s : State} (h : Inv s) (hp : s.phase = .recv) (hmore : s.rxraw + 1 ≠ s.rxmax) (b : Byte) :
    Inv (s.storeByte b) :=
  have hb := Bounded.storeByte h hp b
  { hb, h with
    cnt_busy := by simp
    cnt_idle := by simp [hp]
    recv_line := fun _ => by
      obtain ⟨hrole, hmax, hroom⟩ := h.recv_line hp
      have hraw := toNat_rxraw_add_one hroom
      have hne : (s.rxraw + 1).toNat ≠ s.rxmax.toNat := fun heq => hmore (BitVec.eq_of_toNat_eq heq)
      refine ⟨hrole, hmax, ?_⟩
      rw [storeByte_rxraw, storeByte_rxmax]
      omega
    send_timer := by simp [hp]
    recv_timer := by simp }

/-- A flushed byte is no longer in flight; outside SEND no clause asks for one. -/
theorem Inv.flushed {s : State} (h : Inv s) (hp : s.phase ≠ .send) : Inv { s with txpend := false } :=
  { h with
    send_line := fun hs => absurd hs hp
    receive_flushed := fun _ => rfl
    wake_flushed := fun _ => rfl }

theorem Bounded.flushed {s : State} (h : Bounded s) : Bounded { s with txpend := false } :=
  { h with receive_flushed := fun _ => rfl }

/-- The next byte of a transmission is within its count (41_transfer.md R133). -/
theorem inv_sendNext {s : State} (h : Inv s) (hp : s.phase = .send) (hmore : s.txidx.toNat < s.txn.toNat) :
    Inv (State.sendNext { s with txpend := false }) :=
  have hidx : (s.txidx + 1).toNat = s.txidx.toNat + 1 := by bv_omega
  have hline := h.send_line hp
  { h with
    txidx_le := by
      rw [sendNext_txidx, sendNext_txn, hidx]
      exact hmore
    send_index := fun _ => by
      rw [sendNext_txidx, hidx]
      exact Nat.le_add_left 1 _
    send_line := fun _ => ⟨hline.1, rfl⟩
    receive_flushed := by simp [hline.1]
    wake_flushed := by simp [hp] }

/-- Clauses of the invariant that a register write of 20_memory.md R60 keeps: the floors. -/
theorem floor_le_atLeast (floor v : Half) : floor.toNat ≤ (atLeast floor v).toNat := by
  unfold atLeast
  split <;> omega

/-- The effect of a command issued while idle keeps the invariant. -/
theorem CommandEffect.keepsInv {s t : State} {i : Instr} (h : CommandEffect s i t) (hinv : Inv s)
    (hidle : s.phase = .idle) : Inv t := by
  have hb : Bounded s := hinv.bounded
  have hl : LineReleased s := hinv.lineReleased (by simp [hidle])
  cases h with
  | refused _ => exact inv_complete (s := s.issued _) { hb with } { hl with }
  | wake hquiet => exact inv_startBreak { hb with } ⟨rfl, rfl, by simp⟩ (.inl rfl) hquiet
  | dirTx =>
    exact inv_complete (s := { s.issued _ with role := .transmit }) { hb with receive_flushed := by simp } { hl with }
  | dirRx hquiet =>
    exact inv_complete (s := { s.issued _ with role := .receive }) { hb with receive_flushed := fun _ => hquiet }
      { hl with }
  | send hn hrole _ => exact inv_startSend { hb with } { hl with } ⟨rfl, rfl, by simp⟩ (.inl rfl) hrole hn
  | recv hlen hrole => exact inv_startRecv { hb with } { hl with } ⟨rfl, rfl, by simp⟩ (.inl rfl) hrole hlen
  | crc _ => exact inv_complete (s := { s.issued _ with crcval := _ }) { hb with } { hl with }
  | checkMalformed _ => exact inv_complete (s := s.issued _) { hb with } { hl with }
  | check _ _ => exact inv_complete (s := { s.issued _ with crcval := _ }) { hb with } { hl with }
  | query hn hlen hquiet =>
    obtain ⟨hn1, hn8⟩ := (nInRange_iff _).1 hn
    obtain ⟨hl1, hl128⟩ := (lInRange_iff _).1 hlen
    exact inv_startBreak { hb with txn_le := hn8, txidx_le := Nat.zero_le _, rxmax_le := hl128 }
      ⟨rfl, rfl, fun _ => ⟨hn1, hl1⟩⟩ (.inr rfl) hquiet

/-- The effect of a register write keeps the invariant. -/
theorem WriteEffect.keepsInv {s t : State} {r : Reg} {v : Word} (h : WriteEffect s r v t) (hinv : Inv s) :
    Inv t := by
  cases h with
  | timing _ =>
    exact { hinv with
      break_floor := floor_le_atLeast Config.breakMinUs _
      mark_floor := floor_le_atLeast Config.markMinUs _ }
  | txd _ hr =>
    exact { hinv with
      txbuf_wf := Memory.wf_writeWord hinv.txbuf_wf (by rcases hr with ⟨-, rfl⟩ | ⟨-, rfl⟩ <;> decide) v }
  | illegal hidle =>
    exact inv_complete (s := s.issued _) { hinv.bounded with } { hinv.lineReleased (by simp [hidle]) with }
  | command hidle _ hcmd => exact hcmd.keepsInv hinv hidle
  | _ => exact { hinv with }

/-- The effect of an input keeps the invariant. -/
theorem InputEffect.keepsInv {s t : State} {i : Input} (h : InputEffect s i t) (hinv : Inv s) : Inv t := by
  have hb : Bounded s := hinv.bounded
  cases h with
  | reset =>
    have hreset := inv_reset
    exact { hreset with }
  | terrRecv _ => exact inv_complete (s := s.stripLine.releaseLine) { hb.stripLine.flushed with } ⟨rfl, rfl⟩
  | terrBusy _ _ => exact inv_complete (s := s.releaseLine) { hb.flushed with } ⟨rfl, rfl⟩
  | terrIdle hidle => exact { hinv.flushed (by simp [hidle]) with }
  | dropped _ => exact { hinv with }
  | lineEnd hp _ =>
    exact inv_complete (Bounded.storeByte hinv hp _).stripLine { hinv.lineReleased (by simp [hp]) with }
  | filled hp _ _ =>
    exact inv_complete (Bounded.storeByte hinv hp _).stripLine { hinv.lineReleased (by simp [hp]) with }
  | stored hp _ hmore => exact inv_storeByte hinv hp hmore _
  | noneInFlight _ => exact hinv
  | flushed hp _ => exact hinv.flushed hp
  | sentNext hp _ hmore => exact inv_sendNext hinv hp hmore
  | sendDone hp _ _ _ => exact inv_complete hb.flushed { hinv.lineReleased (by simp [hp]) with }
  | turned hp _ _ hop =>
    have hr := hinv.commandRuns (by simp [hp])
    exact inv_startRecv (s := { s with txpend := false, role := .receive }) { hb with receive_flushed := fun _ => rfl }
      { hinv.lineReleased (by simp [hp]) with } { hr with } (.inr hop) rfl
      ((lInRange_iff _).2 ⟨(hr.query_args hop).2, hb.rxmax_le⟩)
  | sendOther hp _ hsend hquery => exact absurd (hinv.send_op hp) (not_or.2 ⟨hsend, hquery⟩)
  | tickIdle _ => exact hinv
  | counted hbusy hc => exact inv_countDown hinv hbusy hc
  | breakEnd hp _ => exact inv_endBreak hinv hp
  | wakeDone hp _ _ => exact inv_complete hb (hinv.lineReleased (by simp [hp]))
  | queryMarked hp _ hop =>
    have hr := hinv.commandRuns (by simp [hp])
    exact inv_startSend (s := { s with role := .transmit }) { hb with receive_flushed := by simp }
      { hinv.lineReleased (by simp [hp]) with } { hr with } (.inr hop) rfl
      ((nInRange_iff _).2 ⟨(hr.query_args hop).1, hb.txn_le⟩)
  | markOther hp _ hwake hquery => exact absurd (hinv.wake_op (.inr hp)) (not_or.2 ⟨hwake, hquery⟩)
  | sendTimeout hp _ => exact inv_complete hb (hinv.lineReleased (by simp [hp]))
  | recvTimeout hp _ _ => exact inv_complete hb.stripLine { hinv.lineReleased (by simp [hp]) with }
  | read => exact { hinv with }
  | write hwrite => exact hwrite.keepsInv hinv

/-- The invariant says nothing of the pending inputs, the step's trace entry or the trace. -/
theorem inv_step {s t : State} (hinv : Inv s) (h : step s = .next t) : Inv t := by
  rcases step_effect h with ⟨-, rfl⟩ | ⟨i, rest, u, -, heff, rfl⟩
  · exact hinv
  · have hu : Inv u := heff.keepsInv { hinv with }
    exact { hu with }

/-- Every state a run reaches from a state that meets the invariant meets it. -/
theorem inv_runSteps {n : Nat} {s t : State} (hinv : Inv s) (h : runSteps n s = .next t) : Inv t := by
  induction n generalizing s with
  | zero =>
    cases h
    exact hinv
  | succ n ih =>
    obtain ⟨u, hu⟩ := step_next s
    rw [runSteps_succ hu] at h
    exact ih (inv_step hinv hu) h

/-- A refused command, issued in an idle state, writes the result and its flags (30_encoding.md R85). -/
theorem complete_issued_of_idle {s : State} (hinv : Inv s) (hidle : s.phase = .idle) (op : BitVec 8)
    (c : ResultCode) :
    (s.issued op).complete c =
      { s with rop := op, rcode := c, intstat := s.intstat ||| completionFlags c } := by
  have hcur : s.curop = 0 := hinv.idle_iff.1 hidle
  have hcnt : s.cnt = 0 := hinv.cnt_idle hidle
  simp only [State.complete, State.issued, ← hidle, ← hcur, ← hcnt]

end Sys2Proof.Machine

namespace Sys2Proof.Proofs

open Sys2Proof.Machine

/-- Settles O55. -/
theorem invHoldsAtReset : Obligations.InvHoldsAtReset := inv_reset

/-- Settles O56: a step is the effect of one input, and each effect keeps the invariant. -/
theorem stepKeepsInv : Obligations.StepKeepsInv := by
  unfold Obligations.StepKeepsInv
  intro s t hinv hstep
  exact inv_step hinv hstep

/-- Settles O60: the invariant holds along every run from reset, and R26's clauses are among its own. -/
theorem reachableStatesMeetR26 : Obligations.ReachableStatesMeetR26 := by
  unfold Obligations.ReachableStatesMeetR26
  intro inputs n t hrun
  have hreset : Inv { State.reset with inputs := inputs } := { inv_reset with }
  have h : Inv t := inv_runSteps hreset hrun
  refine ⟨h.idle_iff, ⟨h.gpio_iff, h.high_iff⟩, h.cnt_busy, ⟨h.txidx_le, h.txn_le⟩, fun hp => ?recv,
    fun hp => (h.send_line hp).1, ⟨h.rxlen_le, h.rxraw_le⟩, ⟨h.break_floor, h.mark_floor⟩,
    fun hp => (h.running_result hp).1, h.receive_flushed⟩
  case recv =>
    obtain ⟨hrole, hmax, hraw⟩ := h.recv_line hp
    exact ⟨hrole, hmax, h.rxmax_le, hraw⟩

/-- Settles O18: among a command's effects only the refusal has one of the three results. -/
theorem rejectedCommandChangesOnlyTheResult : Obligations.RejectedCommandChangesOnlyTheResult := by
  unfold Obligations.RejectedCommandChangesOnlyTheResult
  intro i s t hinv hidle hexec hcode
  cases exec_effect hexec with
  | refused hc =>
    rw [complete_issued_of_idle hinv hidle]
    rcases hc with rfl | rfl | rfl <;> rfl
  | check _ hc => rcases hc with rfl | rfl <;> simp at hcode
  | _ => simp at hcode

end Sys2Proof.Proofs
end

