-- ==== Sys2Proof/Proofs/Encoding.lean ====
section
/-! PROOFS. The command word by its fields: the decoder, the encoder and the opcode table (30_encoding.md R80 to
R87). -/

namespace Sys2Proof

/-- The fields of R81 determine a word. -/
theorem word_ext_fields {v w : Word} (hop : opField v = opField w) (hn : nField v = nField w)
    (h0 : rsv0Field v = rsv0Field w) (hl : lField v = lField w) (h1 : rsv1Field v = rsv1Field w) : v = w := by
  have hsplit (x : Word) : x = rsv1Field x ++ (lField x ++ (rsv0Field x ++ (nField x ++ opField x))) := by
    simp only [rsv1Field, lField, rsv0Field, nField, opField]
    iterate 4 rw [BitVec.extractLsb'_append_extractLsb'_eq_extractLsb' (by rfl)]
    exact BitVec.extractLsb'_eq_self.symm
  rw [hsplit v, hsplit w, hop, hn, h0, hl, h1]

/-! A value placed at bit `k` of a word fills its own bits and no others. -/

theorem extract_placed_self {w k : Nat} (h : k + w ≤ 32) (x : BitVec w) :
    ((x.setWidth 32 : Word) <<< k).extractLsb' k w = x := by
  ext j hj
  have h1 : k + j < 32 := by omega
  simp [h1, BitVec.getLsbD_eq_getElem hj]

theorem extract_placed_above {w k start len : Nat} (h : k + w ≤ start) (x : BitVec w) :
    ((x.setWidth 32 : Word) <<< k).extractLsb' start len = 0 := by
  ext j hj
  have hout : x.getLsbD (start + j - k) = false := BitVec.getLsbD_of_ge x _ (by omega)
  simp [hout]

theorem extract_placed_below {w k start len : Nat} (h : start + len ≤ k) (x : BitVec w) :
    ((x.setWidth 32 : Word) <<< k).extractLsb' start len = 0 := by
  ext j hj
  have hout : start + j < k := by omega
  simp [hout]

/-- The word of a command is its three operands placed at their fields (R82). -/
theorem encode_eq_placed (i : Instr) :
    encode i = (i.opcode.setWidth 32 <<< 0) ||| (i.nOperand.setWidth 32 <<< 8) ||| (i.lOperand.setWidth 32 <<< 16) := by
  rw [BitVec.shiftLeft_zero]
  rfl

/-! The fields of a command's word (R82, R83). -/

@[simp] theorem opField_encode (i : Instr) : opField (encode i) = i.opcode := by
  simp [opField, encode_eq_placed, BitVec.extractLsb'_or, extract_placed_below, -BitVec.shiftLeft_zero,
    extract_placed_self]

@[simp] theorem nField_encode (i : Instr) : nField (encode i) = i.nOperand := by
  simp [nField, encode_eq_placed, BitVec.extractLsb'_or, extract_placed_below, extract_placed_above,
    extract_placed_self, -BitVec.shiftLeft_zero]

@[simp] theorem rsv0Field_encode (i : Instr) : rsv0Field (encode i) = 0 := by
  simp [rsv0Field, encode_eq_placed, BitVec.extractLsb'_or, extract_placed_below, extract_placed_above,
    -BitVec.shiftLeft_zero]

@[simp] theorem lField_encode (i : Instr) : lField (encode i) = i.lOperand := by
  simp [lField, encode_eq_placed, BitVec.extractLsb'_or, extract_placed_above,
    extract_placed_self, -BitVec.shiftLeft_zero]

@[simp] theorem rsv1Field_encode (i : Instr) : rsv1Field (encode i) = 0 := by
  simp [rsv1Field, encode_eq_placed, BitVec.extractLsb'_or, extract_placed_above, -BitVec.shiftLeft_zero]

/-- A word is a command's encoding exactly when its fields are the command's and the reserved fields are zero. -/
theorem encode_eq_iff (i : Instr) (v : Word) :
    encode i = v ↔ rsv0Field v = 0 ∧ rsv1Field v = 0 ∧ opField v = i.opcode ∧ nField v = i.nOperand ∧
      lField v = i.lOperand := by
  constructor
  · rintro rfl
    simp
  · rintro ⟨h0, h1, hop, hn, hl⟩
    exact word_ext_fields (by simp [hop]) (by simp [hn]) (by simp [h0]) (by simp [hl]) (by simp [h1])

/-- The "must be 0" checks pass a command exactly when the fields they look at are 0. -/
theorem requireZero_eq_command_iff {n l : Bool} {v : Word} {i j : Instr} :
    requireZero n l v i = .command j ↔ (n = true → nField v = 0) ∧ (l = true → lField v = 0) ∧ i = j := by
  unfold requireZero
  split
  case isTrue h =>
    obtain ⟨hn, hnz⟩ : n = true ∧ nField v ≠ 0 := by simpa using h
    exact iff_of_false (by simp) fun h => hnz (h.1 hn)
  case isFalse h =>
    have hn : n = true → nField v = 0 := by simpa using h
    split
    case isTrue h =>
      obtain ⟨hl, hlz⟩ : l = true ∧ lField v ≠ 0 := by simpa using h
      exact iff_of_false (by simp) fun h => hlz (h.2.1 hl)
    case isFalse h =>
      have hl : l = true → lField v = 0 := by simpa using h
      exact ⟨fun heq => ⟨hn, hl, by simpa using heq⟩, fun h => congrArg Decoded.command h.2.2⟩

/-- The decoder reads a command from exactly its encoding: the reserved fields are zero, the opcode selects the row,
and its "must be 0" fields are those the command has no operand for. -/
theorem decode_eq_command_iff (v : Word) (i : Instr) : decode v = .command i ↔ encode i = v := by
  constructor
  · intro h
    rw [encode_eq_iff]
    unfold decode at h
    split at h
    case isTrue => simp at h
    case isFalse hrsv =>
      obtain ⟨h0, h1⟩ : rsv0Field v = 0 ∧ rsv1Field v = 0 := by simpa using hrsv
      refine ⟨h0, h1, ?_⟩
      split at h
      case h_9 => simp at h
      all_goals
        rename_i hop
        obtain ⟨hn, hl, rfl⟩ := requireZero_eq_command_iff.1 h
        exact ⟨BitVec.eq_of_toNat_eq hop, by simp [Instr.nOperand, hn], by simp [Instr.lOperand, hl]⟩
  · rintro rfl
    unfold decode
    rw [rsv0Field_encode, rsv1Field_encode, opField_encode]
    cases i <;> simp [Instr.opcode, requireZero, Instr.nOperand, Instr.lOperand]

/-! The mask of a row of the opcode table fixes whole fields: all but the operands of its command. -/

theorem accepts_iff_fields (r : OpcodeRow) (v : Word) :
    r.accepts v = true ↔
      rsv0Field v &&& rsv0Field r.mask = rsv0Field r.pattern ∧
      rsv1Field v &&& rsv1Field r.mask = rsv1Field r.pattern ∧ opField v &&& opField r.mask = opField r.pattern ∧
      nField v &&& nField r.mask = nField r.pattern ∧ lField v &&& lField r.mask = lField r.pattern := by
  have hand : r.accepts v = true ↔ v &&& r.mask = r.pattern := by simp [OpcodeRow.accepts]
  rw [hand]
  simp only [opField, nField, rsv0Field, lField, rsv1Field, ← BitVec.extractLsb'_and]
  exact ⟨fun h => by simp [h], fun ⟨h0, h1, hop, hn, hl⟩ => word_ext_fields hop hn h0 hl h1⟩

/-- A full mask of an 8-bit field, and of a 4-bit one. -/
theorem and_mask8 (x : BitVec 8) : x &&& 255#8 = x := BitVec.and_allOnes

theorem and_mask4 (x : BitVec 4) : x &&& 15#4 = x := BitVec.and_allOnes

/-! The commands of each row's name. -/

theorem mnemonic_eq_wake (i : Instr) : i.mnemonic = "WAKE" ↔ i = .wake := by cases i <;> simp [Instr.mnemonic]
theorem mnemonic_eq_dirTx (i : Instr) : i.mnemonic = "DIR.TX" ↔ i = .dirTx := by cases i <;> simp [Instr.mnemonic]
theorem mnemonic_eq_dirRx (i : Instr) : i.mnemonic = "DIR.RX" ↔ i = .dirRx := by cases i <;> simp [Instr.mnemonic]
theorem mnemonic_eq_send (i : Instr) : i.mnemonic = "SEND" ↔ ∃ n, i = .send n := by
  cases i <;> simp [Instr.mnemonic]
theorem mnemonic_eq_recv (i : Instr) : i.mnemonic = "RECV" ↔ ∃ l, i = .recv l := by
  cases i <;> simp [Instr.mnemonic]
theorem mnemonic_eq_crc (i : Instr) : i.mnemonic = "CRC" ↔ ∃ l, i = .crc l := by
  cases i <;> simp [Instr.mnemonic]
theorem mnemonic_eq_check (i : Instr) : i.mnemonic = "CHECK" ↔ i = .check := by cases i <;> simp [Instr.mnemonic]
theorem mnemonic_eq_query (i : Instr) : i.mnemonic = "QUERY" ↔ ∃ n l, i = .query n l := by
  cases i <;> simp [Instr.mnemonic]

end Sys2Proof

namespace Sys2Proof.Proofs

/-- Settles O1. -/
theorem listedWordsDecode : Obligations.ListedWordsDecode := by
  unfold Obligations.ListedWordsDecode
  simp only [decode_eq_command_iff]
  decide

/-- Settles O2. -/
theorem decodeOfEncode : Obligations.DecodeOfEncode := by
  unfold Obligations.DecodeOfEncode
  intro i
  exact (decode_eq_command_iff (encode i) i).2 rfl

/-- Settles O3. -/
theorem encodeOfDecode : Obligations.EncodeOfDecode := by
  unfold Obligations.EncodeOfDecode
  intro v i h
  exact (decode_eq_command_iff v i).1 h

/-- Settles O4: by the fields, the mask of each row asks what the encoding of its command asks, and leaves the
operands free. -/
theorem opcodeTableIsTheDecoder : Obligations.OpcodeTableIsTheDecoder := by
  unfold Obligations.OpcodeTableIsTheDecoder
  intro v r hr
  rw [accepts_iff_fields]
  simp only [decode_eq_command_iff, encode_eq_iff]
  simp only [opcodeTable, List.mem_cons, List.not_mem_nil, or_false] at hr
  rcases hr with rfl | rfl | rfl | rfl | rfl | rfl | rfl | rfl
  all_goals
    simp [opField, nField, rsv0Field, lField, rsv1Field, and_mask8, and_mask4, mnemonic_eq_wake, mnemonic_eq_dirTx,
      mnemonic_eq_dirRx, mnemonic_eq_send, mnemonic_eq_recv, mnemonic_eq_crc, mnemonic_eq_check, mnemonic_eq_query,
      Instr.opcode, Instr.nOperand, Instr.lOperand]

end Sys2Proof.Proofs
end

