-- ==== Sys2Proof/Proofs/Assembler.lean ====
section
/-! PROOFS. The assembler of 30_encoding.md R89 writes the encoder's words. -/

namespace Sys2Proof.Machine

/-- The word of each command, as the assembler writes it. -/
theorem encode_send (n : BitVec 4) : encode (.send n) = 0x00000004 ||| BitVec.ofNat 32 n.toNat <<< 8 := by
  simp [encode, Instr.opcode, Instr.nOperand, Instr.lOperand]

theorem encode_recv (l : BitVec 8) : encode (.recv l) = 0x00000005 ||| BitVec.ofNat 32 l.toNat <<< 16 := by
  simp [encode, Instr.opcode, Instr.nOperand, Instr.lOperand]

theorem encode_crc (l : BitVec 8) : encode (.crc l) = 0x00000006 ||| BitVec.ofNat 32 l.toNat <<< 16 := by
  simp [encode, Instr.opcode, Instr.nOperand, Instr.lOperand]

theorem encode_query (n : BitVec 4) (l : BitVec 8) :
    encode (.query n l) = 0x00000008 ||| BitVec.ofNat 32 n.toNat <<< 8 ||| BitVec.ofNat 32 l.toNat <<< 16 := by
  simp [encode, Instr.opcode, Instr.nOperand, Instr.lOperand]

/-- The assembler's range check of a QUERY is that of R83. -/
theorem queryRanges_eq (n : BitVec 4) (l : BitVec 8) :
    (1 ≤ n.toNat && n.toNat ≤ 8 && 1 ≤ l.toNat && l.toNat ≤ 128 : Bool) = (Instr.query n l).wf :=
  Bool.and_assoc _ _ _

/-- A number that fits a field is the value of that field. -/
theorem exists_field_of_lt {w n : Nat} (h : n < 2 ^ w) : ∃ x : BitVec w, n = x.toNat :=
  ⟨BitVec.ofNat w n, by rw [BitVec.toNat_ofNat, Nat.mod_eq_of_lt h]⟩

end Sys2Proof.Machine

namespace Sys2Proof.Proofs

open Sys2Proof.Machine

/-- Settles O5: along the lines the assembler knows, and back along the commands. -/
theorem assemblerWritesTheEncoding : Obligations.AssemblerWritesTheEncoding := by
  unfold Obligations.AssemblerWritesTheEncoding
  intro mnemonic operands v
  constructor
  · intro h
    unfold assemble at h
    split at h
    · cases h; exact ⟨.wake, rfl, rfl, rfl, rfl⟩
    · cases h; exact ⟨.dirTx, rfl, rfl, rfl, rfl⟩
    · cases h; exact ⟨.dirRx, rfl, rfl, rfl, rfl⟩
    · rename_i n
      obtain ⟨hn, ⟨⟩⟩ := Option.ite_none_right_eq_some.1 h
      have hlt : n < 2 ^ 4 := by simp at hn; omega
      obtain ⟨x, rfl⟩ := exists_field_of_lt hlt
      exact ⟨.send x, hn, rfl, (encode_send x).symm, rfl⟩
    · rename_i l
      obtain ⟨hl, ⟨⟩⟩ := Option.ite_none_right_eq_some.1 h
      have hlt : l < 2 ^ 8 := by simp at hl; omega
      obtain ⟨x, rfl⟩ := exists_field_of_lt hlt
      exact ⟨.recv x, hl, rfl, (encode_recv x).symm, rfl⟩
    · rename_i l
      obtain ⟨hl, ⟨⟩⟩ := Option.ite_none_right_eq_some.1 h
      have hlt : l < 2 ^ 8 := by omega
      obtain ⟨x, rfl⟩ := exists_field_of_lt hlt
      exact ⟨.crc x, (scanInRange_iff x).2 hl, rfl, (encode_crc x).symm, rfl⟩
    · cases h; exact ⟨.check, rfl, rfl, rfl, rfl⟩
    · rename_i n l
      obtain ⟨hnl, ⟨⟩⟩ := Option.ite_none_right_eq_some.1 h
      have hn : n < 2 ^ 4 := by simp at hnl; omega
      have hl : l < 2 ^ 8 := by simp at hnl; omega
      obtain ⟨x, rfl⟩ := exists_field_of_lt hn
      obtain ⟨y, rfl⟩ := exists_field_of_lt hl
      exact ⟨.query x y, (queryRanges_eq x y).symm.trans hnl, rfl, (encode_query x y).symm, rfl⟩
    · simp at h
  · rintro ⟨i, hwf, rfl, rfl, rfl⟩
    cases i with
    | wake => rfl
    | dirTx => rfl
    | dirRx => rfl
    | send n =>
      rw [encode_send]
      exact if_pos hwf
    | recv l =>
      rw [encode_recv]
      exact if_pos hwf
    | crc l =>
      rw [encode_crc]
      exact if_pos ((scanInRange_iff l).1 hwf)
    | check => rfl
    | query n l =>
      rw [encode_query]
      exact if_pos ((queryRanges_eq n l).trans hwf)

end Sys2Proof.Proofs
end

