-- ==== Sys2Proof/Proofs/Commands.lean ====
section
/-! PROOFS. How a command is issued and what each does in its step (30_encoding.md R85, 40_wake_duplex.md,
41_transfer.md, 42_checksum.md). -/

namespace Sys2Proof.Machine

/-- A command whose word is written to CMD while idle is the one executed. -/
theorem issue_of_command {v : Word} {i : Instr} (h : decode v = .command i) (s : State) : issue v s = exec i s := by
  unfold issue
  rw [h]

/-- A 32-bit number is placed as the command word it is. -/
theorem withFetchWord_word (v : Word) (s : State) : s.withFetchWord 32 v.toNat = s.withCmdWrite v := by
  have hword : tableWord 32 v.toNat = some v := by
    have hlt : v.toNat < 2 ^ 32 := v.isLt
    simp only [tableWord, Nat.mod_eq_of_lt hlt, if_pos hlt, BitVec.ofNat_toNat, BitVec.setWidth_eq]
  unfold State.withFetchWord
  rw [hword]

/-! The commands whose checks pass (R85). -/

theorem exec_send_of_checks {n : BitVec 4} {s : State} (hn : nInRange n = true) (hrole : s.role = .transmit)
    (hquiet : s.txpend = false) :
    exec (.send n) s = .next (State.startSend n { s.issued 0x04 with curop := 0x04 }) := by
  simp [exec, execSend, hn, hrole, hquiet]

theorem exec_recv_of_checks {l : BitVec 8} {s : State} (hl : lInRange l = true) (hrole : s.role = .receive) :
    exec (.recv l) s = .next (State.startRecv l { s.issued 0x05 with curop := 0x05 }) := by
  simp [exec, execRecv, hl, hrole]

theorem exec_query_of_checks {n : BitVec 4} {l : BitVec 8} {s : State} (hn : nInRange n = true)
    (hl : lInRange l = true) (hquiet : s.txpend = false) :
    exec (.query n l) s =
      .next (State.startBreak { s.issued 0x08 with curop := 0x08, txn := n, txidx := 0, rxmax := l }) := by
  simp [exec, execQuery, hn, hl, hquiet]

theorem exec_wake_of_quiet {s : State} (hquiet : s.txpend = false) :
    exec .wake s = .next (State.startBreak { s.issued 0x01 with curop := 0x01 }) := by
  simp [exec, execWake, hquiet]

theorem exec_dirRx_of_quiet {s : State} (hquiet : s.txpend = false) :
    exec .dirRx s = .next (State.complete .ok { s.issued 0x03 with role := .receive }) := by
  simp [exec, execDirRx, hquiet]

theorem exec_dirRx_of_pending {s : State} (hpend : s.txpend = true) :
    exec .dirRx s = .next ((s.issued 0x03).complete .txPend) := by
  simp [exec, execDirRx, hpend]

theorem exec_crc_of_range {l : BitVec 8} (hl : scanInRange l = true) (s : State) :
    exec (.crc l) s =
      .next (State.complete .ok { s.issued 0x06 with crcval := crcScan s.rxbuf s.crcinit l.toNat }) := by
  simp [exec, execCrc, hl]

theorem exec_check_of_short {s : State} (h : s.rxlen.toNat < 3) :
    exec .check s = .next ((s.issued 0x07).complete .malformed) := by
  simp [exec, execCheck, h]

/-! CHECK compares the code characters with those of the CRC of the bytes before them (42_checksum.md R176). -/

theorem exec_check_of_match {s : State} (h : 3 ≤ s.rxlen.toNat)
    (hcode : codeAt s.rxbuf (s.rxlen.toNat - 3) = enc3 (crcScan s.rxbuf s.crcinit (s.rxlen.toNat - 3))) :
    exec .check s = .next (State.complete .ok
      { s.issued 0x07 with crcval := crcScan s.rxbuf s.crcinit (s.rxlen.toNat - 3) }) :=
  congrArg Host.Outcome.next ((if_neg (Nat.not_lt.2 h)).trans (if_pos hcode))

theorem exec_check_of_mismatch {s : State} (h : 3 ≤ s.rxlen.toNat)
    (hcode : codeAt s.rxbuf (s.rxlen.toNat - 3) ≠ enc3 (crcScan s.rxbuf s.crcinit (s.rxlen.toNat - 3))) :
    exec .check s = .next (State.complete .crcMismatch
      { s.issued 0x07 with crcval := crcScan s.rxbuf s.crcinit (s.rxlen.toNat - 3) }) :=
  congrArg Host.Outcome.next ((if_neg (Nat.not_lt.2 h)).trans (if_neg hcode))

/-- The CRC of a scan reads its bytes and no others (42_checksum.md R175). -/
theorem crcScan_congr {m m' : Memory} {n : Nat} (h : ∀ j, j < n → m.read j = m'.read j) (c : Half) :
    crcScan m c n = crcScan m' c n := by
  have hbytes : (List.range n).map m.read = (List.range n).map m'.read :=
    List.map_congr_left fun j hj => h j (List.mem_range.1 hj)
  rw [crcScan_eq_fold, crcScan_eq_fold, hbytes]

/-- The error codes of 60_exceptions.md R200 set DONE and ERR, the others DONE. -/
theorem completionFlags_of_error {c : ResultCode} (h : c.isError = true) : completionFlags c = 0x03 := by
  unfold completionFlags
  rw [if_pos h]
  rfl

theorem completionFlags_of_success {c : ResultCode} (h : c.isError = false) : completionFlags c = 0x01 := by
  simp [completionFlags, h, Flag.mask, Flag.bit]

theorem isError_iff (c : ResultCode) :
    c.isError = true ↔ c = .noDev ∨ c = .partialLine ∨ c = .txTimeout ∨ c = .transport ∨ c = .crcMismatch ∨
      c = .malformed ∨ c = .illegal ∨ c = .badArg ∨ c = .role ∨ c = .txPend := by
  cases c <;> simp [ResultCode.isError]

end Sys2Proof.Machine

namespace Sys2Proof.Proofs

open Sys2Proof.Machine

/-- Settles O7: while idle a CMD write issues its word, and the issue of a command's word is the command. -/
theorem stepRunsDecodedCommand : Obligations.StepRunsDecodedCommand := by
  unfold Obligations.StepRunsDecodedCommand
  intro v off i rest s hidle hin hoff hdec
  rw [step_cmdWrite_of_idle hidle hin hoff, issue_of_command hdec]

/-- Settles O8: the placed word is a CMD write, pending first in an idle state. -/
theorem placedWordRunsNext : Obligations.PlacedWordRunsNext := by
  unfold Obligations.PlacedWordRunsNext
  intro v i s hdec
  have hstep := step_cmdWrite_of_idle (s := s.withCmdWrite v) (v := v) (off := 0x008) rfl rfl rfl
  rw [withFetchWord_word, hstep, issue_of_command hdec]
  rfl

/-- Settles O9. -/
theorem stepAnswersNext : Obligations.StepAnswersNext := by
  unfold Obligations.StepAnswersNext
  intro s
  exact ⟨step_next s, step_nil⟩

/-- Settles O10. -/
theorem wakeAndQueryStartBreak : Obligations.WakeAndQueryStartBreak := by
  unfold Obligations.WakeAndQueryStartBreak
  intro s hquiet
  refine ⟨exec_wake_of_quiet hquiet, fun n l hn1 hn8 hl1 hl128 => ?_⟩
  exact exec_query_of_checks ((nInRange_iff n).2 ⟨hn1, hn8⟩) ((lInRange_iff l).2 ⟨hl1, hl128⟩) hquiet

/-- Settles O11. -/
theorem dirTxSetsTransmit : Obligations.DirTxSetsTransmit := by
  unfold Obligations.DirTxSetsTransmit
  intro s
  rfl

/-- Settles O12. -/
theorem dirRxSetsReceive : Obligations.DirRxSetsReceive := by
  unfold Obligations.DirRxSetsReceive
  intro s
  exact ⟨exec_dirRx_of_quiet, exec_dirRx_of_pending⟩

/-- Settles O13. -/
theorem sendHandsOverFirstByte : Obligations.SendHandsOverFirstByte := by
  unfold Obligations.SendHandsOverFirstByte
  intro n s hn1 hn8 hrole hquiet
  exact exec_send_of_checks ((nInRange_iff n).2 ⟨hn1, hn8⟩) hrole hquiet

/-- Settles O14. -/
theorem recvArmsReceiver : Obligations.RecvArmsReceiver := by
  unfold Obligations.RecvArmsReceiver
  intro l s hl1 hl128 hrole
  exact exec_recv_of_checks ((lInRange_iff l).2 ⟨hl1, hl128⟩) hrole

/-- Settles O15: the scan is the fold of 42_checksum.md R171. -/
theorem crcFoldsBufferUpToCr : Obligations.CrcFoldsBufferUpToCr := by
  unfold Obligations.CrcFoldsBufferUpToCr
  intro l s hl
  rw [← crcScan_eq_fold]
  exact exec_crc_of_range ((scanInRange_iff l).2 hl) s

/-- Settles O16: a line too short for a code, else the comparison of the code with that of the scan. -/
theorem checkReportsTheComparison : Obligations.CheckReportsTheComparison := by
  unfold Obligations.CheckReportsTheComparison
  intro s body c code done
  have hscan : crcScan s.rxbuf s.crcinit body = c := crcScan_eq_fold s.rxbuf s.crcinit body
  refine ⟨fun hshort => exec_check_of_short hshort, fun hlong hcode => ?ok, fun hlong hcode => ?mismatch⟩
  case ok =>
    rw [← hscan] at hcode
    rw [exec_check_of_match hlong hcode, ← hscan]
    rfl
  case mismatch =>
    rw [← hscan] at hcode
    rw [exec_check_of_mismatch hlong hcode, ← hscan]
    rfl

/-- Settles O53: both commands scan, and the scans read equal bytes. -/
theorem crcDependsOnlyOnItsInputs : Obligations.CrcDependsOnlyOnItsInputs := by
  unfold Obligations.CrcDependsOnlyOnItsInputs
  intro l s s' t t' hl hinit hbytes ht ht'
  have hrange := (scanInRange_iff l).2 hl
  rw [exec_crc_of_range hrange] at ht ht'
  cases ht
  cases ht'
  calc crcScan s.rxbuf s.crcinit l.toNat
    _ = crcScan s'.rxbuf s.crcinit l.toNat := crcScan_congr hbytes s.crcinit
    _ = crcScan s'.rxbuf s'.crcinit l.toNat := by rw [hinit]

/-- Settles O47. -/
theorem completeRecordsTheResult : Obligations.CompleteRecordsTheResult := by
  unfold Obligations.CompleteRecordsTheResult
  intro c s isError
  refine ⟨fun herr => ?error, fun hok => ?success⟩
  case error => rw [State.complete, completionFlags_of_error ((isError_iff c).2 herr)]
  case success =>
    have hclass : c.isError = false := Bool.eq_false_iff.2 (mt (isError_iff c).1 hok)
    rw [State.complete, completionFlags_of_success hclass]

end Sys2Proof.Proofs
end

