-- ==== Sys2Proof/Proofs/Registers.lean ====
section
/-! PROOFS. The register window: which register an offset selects, what each register reads as, and its write rule
while idle (20_memory.md). -/

namespace Sys2Proof.Machine

/-! ### Offsets -/

/-- An offset selects the register of its word offset (20_memory.md R51). -/
theorem Reg.ofOffset_of_word {off woff : Offset} (h : off &&& 0xFFC = woff) :
    Reg.ofOffset off = Reg.ofOffset woff := by
  rw [← h, Reg.ofOffset_and_wordMask]

/-- The word offsets of R54 with no register. -/
theorem Reg.ofOffset_reserved {off : Offset}
    (h : (off &&& 0xFFC).toNat = 0x02C ∨ (0x038 ≤ (off &&& 0xFFC).toNat ∧ (off &&& 0xFFC).toNat ≤ 0x0FC) ∨
      0x180 ≤ (off &&& 0xFFC).toNat) : Reg.ofOffset off = .reserved := by
  change wordOffset off = 0x02C ∨ (0x038 ≤ wordOffset off ∧ wordOffset off ≤ 0x0FC) ∨ 0x180 ≤ wordOffset off at h
  unfold Reg.ofOffset
  generalize wordOffset off = woff at h ⊢
  have hwindow : ¬ (0x100 ≤ woff && woff ≤ 0x17C) = true := by
    simp only [Bool.and_eq_true, decide_eq_true_eq]
    omega
  split
  case h_14 => exact if_neg hwindow
  all_goals omega

/-- From 0x038 on no register takes a write: the offset is reserved or a word of the receive buffer. -/
theorem Reg.ignoresWrites_of_ge {off : Offset} (h : 0x038 ≤ (off &&& 0xFFC).toNat) :
    (Reg.ofOffset off).ignoresWrites = true := by
  change 0x038 ≤ wordOffset off at h
  unfold Reg.ofOffset
  generalize wordOffset off = woff at h ⊢
  split
  case h_14 => split <;> rfl
  all_goals omega

/-- Only the word offset of CMD selects CMD. -/
theorem wordMask_of_ofOffset_cmd {off : Offset} (h : Reg.ofOffset off = .cmd) : off &&& 0xFFC = 0x008 := by
  unfold Reg.ofOffset at h
  split at h
  case h_3 hw => exact BitVec.eq_of_toNat_eq hw
  case h_14 => split at h <;> cases h
  all_goals cases h

/-- Only the word offset of INTSTAT selects INTSTAT. -/
theorem wordMask_of_ofOffset_intstat {off : Offset} (h : Reg.ofOffset off = .intstat) : off &&& 0xFFC = 0x028 := by
  unfold Reg.ofOffset at h
  split at h
  case h_11 hw => exact BitVec.eq_of_toNat_eq hw
  case h_14 => split at h <;> cases h
  all_goals cases h

theorem regValue_of_ofOffset {off : Offset} {r : Reg} (h : Reg.ofOffset off = r) (s : State) :
    s.regValue off = s.readReg r := congrArg s.readReg h

theorem regWrite_of_ofOffset {off : Offset} {r : Reg} (h : Reg.ofOffset off = r) (v : Word) (s : State) :
    regWrite off v s = writeReg r v s := by
  rw [regWrite, h]

/-- An offset of the window is that of its bus address (20_memory.md R50). -/
theorem windowOffset_base_add (off : Offset) : windowOffset (Config.base + off.toNat) = some off := by
  have hlt : off.toNat < 4096 := off.isLt
  simp [windowOffset, hlt]

/-! ### Words of bytes -/

/-- Byte `j` of a word of a buffer, low byte first (20_memory.md R68). -/
theorem extract_readWord (m : Memory) (a : Nat) {j : Nat} (hj : j < 4) :
    (m.readWord a).extractLsb' (8 * j) 8 = m.read (a + j) := by
  unfold Memory.readWord
  have hj' : j = 0 ∨ j = 1 ∨ j = 2 ∨ j = 3 := by omega
  rcases hj' with rfl | rfl | rfl | rfl
  · exact BitVec.extractLsb'_append_eq_right
  · rw [BitVec.extractLsb'_append_eq_of_le (by decide)]
    exact BitVec.extractLsb'_append_eq_right
  · iterate 2 rw [BitVec.extractLsb'_append_eq_of_le (by decide)]
    exact BitVec.extractLsb'_append_eq_right
  · iterate 3 rw [BitVec.extractLsb'_append_eq_of_le (by decide)]
    exact BitVec.extractLsb'_eq_self

/-- A word is its four bytes. -/
theorem bytes_append (v : Word) :
    v.extractLsb' 24 8 ++ v.extractLsb' 16 8 ++ v.extractLsb' 8 8 ++ v.extractLsb' 0 8 = v := by
  iterate 3 rw [BitVec.extractLsb'_append_extractLsb'_eq_extractLsb' (by rfl)]
  exact BitVec.extractLsb'_eq_self

/-- A word written to a buffer reads back. -/
theorem readWord_writeWord {size : Nat} {m : Memory} (h : m.wf size = true) {a : Nat} (ha : a + 3 < size) (v : Word) :
    (m.writeWord a v).readWord a = v := by
  simp [Memory.readWord, Memory.read_writeWord h ha, bytes_append]

/-- Byte `k` of a written word. -/
theorem read_writeWord_byte {size : Nat} {m : Memory} (h : m.wf size = true) {a : Nat} (ha : a + 3 < size) (v : Word)
    {k : Nat} (hk : k < 4) : (m.writeWord a v).read (a + k) = v.extractLsb' (8 * k) 8 := by
  rw [Memory.read_writeWord h ha]
  match k, hk with
  | 0, _ => simp
  | 1, _ => simp
  | 2, _ => simp
  | 3, _ => simp

/-! ### Writes while idle -/

theorem whenIdle_of_idle {s : State} (h : s.phase = .idle) (f : State → State) : whenIdle f s = f s :=
  ((whenIdle_cases f s).resolve_right fun hbusy => hbusy.1 h).2

/-- A duration raised to its floor (R60). -/
theorem toNat_atLeast (floor v : Half) : (atLeast floor v).toNat = max v.toNat floor.toNat := by
  unfold atLeast
  split <;> omega

/-- A write of ones clears the flags at its ones (R65). -/
theorem getLsbD_writeIntstat (v : Word) (s : State) {k : Nat} (hk : k < 5) :
    (writeIntstat v s).intstat.getLsbD k = (s.intstat.getLsbD k && !v.getLsbD k) := by
  have h32 : k < 32 := by omega
  simp [writeIntstat, hk]

end Sys2Proof.Machine

namespace Sys2Proof.Proofs

open Sys2Proof.Machine

/-- Settles O20. -/
theorem regReadHasNoSideEffect : Obligations.RegReadHasNoSideEffect := by
  unfold Obligations.RegReadHasNoSideEffect
  refine ⟨fun off rest s hin => step_of_handle hin rfl,
    fun s => ⟨rfl, rfl, rfl, rfl, rfl, rfl, rfl, rfl, ?txd, ?reserved⟩⟩
  case txd =>
    intro j hj
    have h1 := extract_readWord s.txbuf 4 hj
    have h0 := extract_readWord s.txbuf 0 hj
    rw [Nat.zero_add] at h0
    exact ⟨h0, h1⟩
  case reserved =>
    rintro off woff rfl hres
    have hword : (off &&& 0xFFC).toNat = 0x02C ∨ _ := hres.imp_left (congrArg BitVec.toNat)
    exact regValue_of_ofOffset (Reg.ofOffset_reserved hword) s

/-- Settles O21. -/
theorem accessGoesToTheWordOffset : Obligations.AccessGoesToTheWordOffset := by
  unfold Obligations.AccessGoesToTheWordOffset
  refine ⟨fun off v s => ⟨?read, ?write⟩, windowOffset_base_add, fun addr hout => ?outside⟩
  case read => rw [State.regValue, State.regValue, Reg.ofOffset_and_wordMask]
  case write => rw [regWrite, regWrite, Reg.ofOffset_and_wordMask]
  case outside =>
    refine if_neg ?_
    simp only [Bool.and_eq_true, decide_eq_true_eq, Config.windowBytes]
    omega

/-- Settles O22. -/
theorem readOnlyWritesIgnored : Obligations.ReadOnlyWritesIgnored := by
  unfold Obligations.ReadOnlyWritesIgnored
  intro off v s hword
  refine writeReg_ignored ?_ v s
  have hnamed {w : Offset} (h : (off &&& 0xFFC).toNat = w.toNat) : Reg.ofOffset off = Reg.ofOffset w :=
    Reg.ofOffset_of_word (BitVec.eq_of_toNat_eq h)
  rcases hword with h | h | h | h | h | h
  · rw [hnamed (w := 0x000) h]; rfl
  · rw [hnamed (w := 0x004) h]; rfl
  · rw [hnamed (w := 0x00C) h]; rfl
  · rw [hnamed (w := 0x010) h]; rfl
  · rw [hnamed (w := 0x02C) h]; rfl
  · exact Reg.ignoresWrites_of_ge h

/-- Settles O24. -/
theorem timingWriteRaisesToTheFloors : Obligations.TimingWriteRaisesToTheFloors := by
  unfold Obligations.TimingWriteRaisesToTheFloors
  intro v s hidle
  exact ⟨writeTiming v s, congrArg Host.Outcome.next (whenIdle_of_idle hidle _), toNat_atLeast _ _, toNat_atLeast _ _,
    rfl, rfl⟩

/-- Settles O25. -/
theorem crcRegisterWrites : Obligations.CrcRegisterWrites := by
  unfold Obligations.CrcRegisterWrites
  intro v s hidle
  have hwrite (f : State → State) : Host.Outcome.next (φ := Fault) (ρ := Refusal) (whenIdle f s) = .next (f s) :=
    congrArg Host.Outcome.next (whenIdle_of_idle hidle f)
  exact ⟨hwrite _, hwrite _, hwrite _, rfl, rfl, rfl⟩

/-- Settles O26. -/
theorem interruptRegisterWrites : Obligations.InterruptRegisterWrites := by
  unfold Obligations.InterruptRegisterWrites
  intro v s
  exact ⟨rfl, ⟨writeIntstat v s, rfl, rfl, fun k hk => getLsbD_writeIntstat v s hk⟩, rfl, rfl⟩

/-- Settles O28: TXD0 and TXD1 are the words at 0 and 4 of the transmit buffer. -/
theorem txdWriteReadsBack : Obligations.TxdWriteReadsBack := by
  unfold Obligations.TxdWriteReadsBack
  intro v s hidle hwf off a hoff
  have ha : a + 3 < 8 := by omega
  have hwrite : regWrite off v s = .next (writeTxd a v s) := by
    have hidleWrite : whenIdle (writeTxd a v) s = writeTxd a v s := whenIdle_of_idle hidle _
    rw [← hidleWrite]
    rcases hoff with ⟨rfl, rfl⟩ | ⟨rfl, rfl⟩ <;> rfl
  have hread (t : State) : t.regValue off = t.txbuf.readWord a := by
    rcases hoff with ⟨rfl, rfl⟩ | ⟨rfl, rfl⟩ <;> rfl
  refine ⟨writeTxd a v s, hwrite, rfl, ?_, fun k hk => read_writeWord_byte hwf ha v hk, fun j hj => ?_,
    Memory.wf_writeWord hwf ha v⟩
  · rw [hread]
    exact readWord_writeWord hwf ha v
  · change (s.txbuf.writeWord a v).read j = _
    rw [Memory.read_writeWord hwf ha, if_neg, if_neg, if_neg, if_neg] <;> omega

/-- Settles O29. -/
theorem rxbufWindowIsLittleEndian : Obligations.RxbufWindowIsLittleEndian := by
  unfold Obligations.RxbufWindowIsLittleEndian
  intro s k j hk hj
  have hreg : Reg.ofOffset (BitVec.ofNat 12 (0x100 + 4 * k)) = .rxbuf ⟨k, hk⟩ := Reg.ofOffset_rxbuf ⟨k, hk⟩
  rw [regValue_of_ofOffset hreg]
  exact extract_readWord s.rxbuf (4 * k) hj

/-- Settles O49. -/
theorem irqIsEnabledPending : Obligations.IrqIsEnabledPending := by
  unfold Obligations.IrqIsEnabledPending
  intro s
  have hne : s.irq = true ↔ s.intstat &&& s.inten ≠ 0 := by simp [State.irq]
  refine ⟨rfl, hne.trans ?_⟩
  constructor
  · intro h
    by_contra hnone
    refine h (BitVec.eq_of_getLsbD_eq fun k hk => ?_)
    have hk' : ¬ (s.intstat.getLsbD k = true ∧ s.inten.getLsbD k = true) := fun hb => hnone ⟨k, hk, hb⟩
    simpa using hk'
  · rintro ⟨k, -, hpend, hen⟩ hzero
    have hbit := congrArg (·.getLsbD k) hzero
    simp [hpend, hen] at hbit

end Sys2Proof.Proofs
end

