-- ==== Sys2Proof/Proofs/RegisterFields.lean ====
section
/-! PROOFS. The fields of STATUS, RESULT and RXLEN at their bits (20_memory.md R55, R58, R59). -/

namespace Sys2Proof.Machine

@[simp] theorem getLsbD_zero_ofBool (b : Bool) : (BitVec.ofBool b).getLsbD 0 = b := by cases b <;> rfl

@[simp] theorem getLsbD_zero_roleCode (r : Role) : r.code.getLsbD 0 = decide (r = .transmit) := by cases r <;> rfl

@[simp] theorem getLsbD_zero_pinModeCode (p : PinMode) : p.code.getLsbD 0 = decide (p = .gpio) := by cases p <;> rfl

@[simp] theorem getLsbD_zero_levelCode (l : Level) : l.code.getLsbD 0 = decide (l = .high) := by cases l <;> rfl

section
variable (s : State)

/-! STATUS: BUSY, ROLE, PIN, LEVEL and TXPEND are bits 0 to 4, PHASE is bits 10 to 8, OP is bits 23 to 16. -/

theorem statusWord_busy : s.statusWord.getLsbD 0 = decide (s.phase ≠ .idle) := by
  have hbit : s.statusWord.getLsbD 0 = s.busy := by
    unfold State.statusWord
    rw [BitVec.getLsbD_append, if_pos (by decide), getLsbD_zero_ofBool]
  rw [hbit, State.busy]
  cases s.phase <;> rfl

theorem statusWord_role : s.statusWord.getLsbD 1 = decide (s.role = .transmit) := by
  unfold State.statusWord
  rw [BitVec.getLsbD_append, if_neg (by decide)]
  rw [BitVec.getLsbD_append, if_pos (by decide)]
  exact getLsbD_zero_roleCode s.role

theorem statusWord_pin : s.statusWord.getLsbD 2 = decide (s.pinmode = .gpio) := by
  unfold State.statusWord
  iterate 2 rw [BitVec.getLsbD_append, if_neg (by decide)]
  rw [BitVec.getLsbD_append, if_pos (by decide)]
  exact getLsbD_zero_pinModeCode s.pinmode

theorem statusWord_level : s.statusWord.getLsbD 3 = decide (s.level = .high) := by
  unfold State.statusWord
  iterate 3 rw [BitVec.getLsbD_append, if_neg (by decide)]
  rw [BitVec.getLsbD_append, if_pos (by decide)]
  exact getLsbD_zero_levelCode s.level

theorem statusWord_txpend : s.statusWord.getLsbD 4 = s.txpend := by
  unfold State.statusWord
  iterate 4 rw [BitVec.getLsbD_append, if_neg (by decide)]
  rw [BitVec.getLsbD_append, if_pos (by decide)]
  exact getLsbD_zero_ofBool s.txpend

theorem statusWord_phase : s.statusWord.extractLsb' 8 3 = s.phase.code := by
  unfold State.statusWord
  iterate 6 rw [BitVec.extractLsb'_append_eq_of_le (by decide)]
  exact BitVec.extractLsb'_append_eq_right

theorem statusWord_op : s.statusWord.extractLsb' 16 8 = s.curop := by
  unfold State.statusWord
  iterate 8 rw [BitVec.extractLsb'_append_eq_of_le (by decide)]
  exact BitVec.extractLsb'_append_eq_right

theorem statusWord_reserved :
    s.statusWord.extractLsb' 5 3 = 0 ∧ s.statusWord.extractLsb' 11 5 = 0 ∧ s.statusWord.extractLsb' 24 8 = 0 := by
  unfold State.statusWord
  refine ⟨?_, ?_, ?_⟩
  · iterate 5 rw [BitVec.extractLsb'_append_eq_of_le (by decide)]
    exact BitVec.extractLsb'_append_eq_right
  · iterate 7 rw [BitVec.extractLsb'_append_eq_of_le (by decide)]
    exact BitVec.extractLsb'_append_eq_right
  · iterate 9 rw [BitVec.extractLsb'_append_eq_of_le (by decide)]
    exact BitVec.extractLsb'_eq_self

/-! RESULT: CODE is bits 3 to 0, OP is bits 15 to 8. -/

theorem resultWord_code : s.resultWord.extractLsb' 0 4 = s.rcode.code := BitVec.extractLsb'_append_eq_right

theorem resultWord_op : s.resultWord.extractLsb' 8 8 = s.rop := by
  unfold State.resultWord
  iterate 2 rw [BitVec.extractLsb'_append_eq_of_le (by decide)]
  exact BitVec.extractLsb'_append_eq_right

theorem resultWord_reserved : s.resultWord.extractLsb' 4 4 = 0 ∧ s.resultWord.extractLsb' 16 16 = 0 := by
  unfold State.resultWord
  refine ⟨?_, ?_⟩
  · rw [BitVec.extractLsb'_append_eq_of_le (by decide)]
    exact BitVec.extractLsb'_append_eq_right
  · iterate 3 rw [BitVec.extractLsb'_append_eq_of_le (by decide)]
    exact BitVec.extractLsb'_eq_self

/-! RXLEN: LEN, RAW and MAX are its bytes 0, 1 and 2. -/

theorem rxlenWord_len : s.rxlenWord.extractLsb' 0 8 = s.rxlen := BitVec.extractLsb'_append_eq_right

theorem rxlenWord_raw : s.rxlenWord.extractLsb' 8 8 = s.rxraw := by
  unfold State.rxlenWord
  rw [BitVec.extractLsb'_append_eq_of_le (by decide)]
  exact BitVec.extractLsb'_append_eq_right

theorem rxlenWord_max : s.rxlenWord.extractLsb' 16 8 = s.rxmax := by
  unfold State.rxlenWord
  iterate 2 rw [BitVec.extractLsb'_append_eq_of_le (by decide)]
  exact BitVec.extractLsb'_append_eq_right

theorem rxlenWord_reserved : s.rxlenWord.extractLsb' 24 8 = 0 := by
  unfold State.rxlenWord
  iterate 3 rw [BitVec.extractLsb'_append_eq_of_le (by decide)]
  exact BitVec.extractLsb'_eq_self

end

end Sys2Proof.Machine

namespace Sys2Proof.Proofs

open Sys2Proof.Machine

/-- Settles O30. -/
theorem statusResultRxlenFields : Obligations.StatusResultRxlenFields := by
  unfold Obligations.StatusResultRxlenFields
  intro s
  refine ⟨?status, ?result, ?rxlen⟩
  case status =>
    obtain ⟨h5, h11, h24⟩ := statusWord_reserved s
    exact ⟨statusWord_busy s, statusWord_role s, statusWord_pin s, statusWord_level s, statusWord_txpend s, h5,
      statusWord_phase s, h11, statusWord_op s, h24⟩
  case result =>
    obtain ⟨h4, h16⟩ := resultWord_reserved s
    exact ⟨resultWord_code s, h4, resultWord_op s, h16⟩
  case rxlen => exact ⟨rxlenWord_len s, rxlenWord_raw s, rxlenWord_max s, rxlenWord_reserved s⟩

end Sys2Proof.Proofs
end

