-- ==== Sys2Proof/Proofs/ChecksumArithmetic.lean ====
section
/-! PROOFS. The arithmetic of the CRC, its streaming port and its code characters (42_checksum.md R170, R172, R178). -/

namespace Sys2Proof.Machine

/-- The polynomial a shift step adds, by the bit shifted out. -/
def crcTap (b : Bool) : Half := if b then Config.crcPoly else 0

theorem crcTap_xor (a b : Bool) : crcTap (a ^^ b) = crcTap a ^^^ crcTap b := by cases a <;> cases b <;> decide

theorem crcShift_eq (c : Half) : crcShift c = c >>> 1 ^^^ crcTap (c.getLsbD 0) := by
  unfold crcShift crcTap
  split
  · rfl
  · exact BitVec.xor_zero.symm

/-- A shift step is linear: so are the shift and the choice of the polynomial. -/
theorem crcShift_xor (c d : Half) : crcShift (c ^^^ d) = crcShift c ^^^ crcShift d := by
  simp only [crcShift_eq, BitVec.getLsbD_xor, BitVec.ushiftRight_xor_distrib, crcTap_xor]
  ac_rfl

theorem crcShifts_xor (k : Nat) (c d : Half) : crcShifts k (c ^^^ d) = crcShifts k c ^^^ crcShifts k d := by
  induction k generalizing c d with
  | zero => rfl
  | succ k ih => simp only [crcShifts, crcShift_xor, ih]

/-- The byte step is linear in the running value and the byte. -/
theorem crcByte_xor (c d : Half) (a b : Byte) : crcByte (c ^^^ d) (a ^^^ b) = crcByte c a ^^^ crcByte d b := by
  have hbyte : (a ^^^ b).setWidth 16 = (a.setWidth 16 ^^^ b.setWidth 16 : Half) := BitVec.setWidth_xor
  unfold crcByte
  rw [← crcShifts_xor, hbyte]
  congr 1
  ac_rfl

/-- A step that takes a write of CRCIN while idle makes one byte step (20_memory.md R63). -/
theorem step_crcin {w : Word} {rest : List Input} {s : State} (hidle : s.phase = .idle)
    (hin : s.inputs = hostWrite 0x020 w :: rest) :
    step s = .next (State.record (hostWrite 0x020 w)
      { s with inputs := rest, crcval := crcByte s.crcval (w.extractLsb' 0 8) }) := by
  refine step_of_handle hin (congrArg Host.Outcome.next ?_)
  exact whenIdle_of_idle (s := { s with inputs := rest }) hidle _

theorem step_crcval {w : Word} {rest : List Input} {s : State} (hidle : s.phase = .idle)
    (hin : s.inputs = hostWrite 0x01C w :: rest) :
    step s = .next (State.record (hostWrite 0x01C w) { s with inputs := rest, crcval := w.extractLsb' 0 16 }) := by
  refine step_of_handle hin (congrArg Host.Outcome.next ?_)
  exact whenIdle_of_idle (s := { s with inputs := rest }) hidle _

/-- A run of CRCIN writes folds their bytes into `crcval` and changes nothing else (42_checksum.md R178). -/
theorem runSteps_crcin (vs : List Word) {rest : List Input} {s : State} (hidle : s.phase = .idle)
    (hin : s.inputs = vs.map (hostWrite 0x020) ++ rest) :
    ∃ t, runSteps vs.length s = .next t ∧
      t = { s with
        crcval := crcFold s.crcval (vs.map fun w => w.extractLsb' 0 8)
        inputs := rest
        trace := t.trace } ∧
      txBytesOf t.trace = txBytesOf s.trace := by
  induction vs generalizing s with
  | nil =>
    have hin : s.inputs = rest := hin
    exact ⟨s, rfl, by rw [← hin]; rfl, rfl⟩
  | cons w vs ih =>
    obtain ⟨t, hrun, ht, hbytes⟩ := ih (s := State.record (hostWrite 0x020 w)
      { s with
        inputs := vs.map (hostWrite 0x020) ++ rest
        crcval := crcByte s.crcval (w.extractLsb' 0 8) }) hidle rfl
    exact ⟨t, (runSteps_succ (step_crcin hidle hin) vs.length).trans hrun, ht, hbytes⟩

/-- A code character has bit 6 set and no higher bit (R172). -/
theorem codeChar_range {w : Nat} (hw : w ≤ 6) (x : BitVec w) :
    0x40 ≤ (0x40 ||| x.setWidth 8 : Byte).toNat ∧ (0x40 ||| x.setWidth 8 : Byte).toNat ≤ 0x7F := by
  have hx : x.toNat < 2 ^ 7 := x.isLt.trans_le (Nat.pow_le_pow_right (by decide) (by omega))
  have hwidth : (x.setWidth 8).toNat = x.toNat := BitVec.toNat_setWidth_of_le (by omega)
  rw [BitVec.toNat_or, hwidth]
  exact ⟨Nat.left_le_or, Nat.le_of_lt_succ (Nat.or_lt_two_pow (by decide) hx)⟩

/-- The low bits of a code character are its value. -/
theorem extract_codeChar {w : Nat} (hw : w ≤ 6) (x : BitVec w) :
    (0x40 ||| x.setWidth 8 : Byte).extractLsb' 0 w = x := by
  have hlow : ∀ j, j < 6 → (0x40 : Byte).getLsbD j = false := by decide
  refine BitVec.eq_of_getLsbD_eq fun j hj => ?_
  have h8 : j < 8 := by omega
  rw [BitVec.getLsbD_extractLsb', BitVec.getLsbD_or, Nat.zero_add, hlow j (by omega)]
  simp [hj, h8]

theorem codeChar_injective {w : Nat} (hw : w ≤ 6) {x y : BitVec w}
    (h : (0x40 ||| x.setWidth 8 : Byte) = 0x40 ||| y.setWidth 8) : x = y := by
  rw [← extract_codeChar hw x, h, extract_codeChar hw y]

/-- The three parts of a value that the characters carry determine it. -/
theorem half_ext_parts {c d : Half} (h1 : c.extractLsb' 12 4 = d.extractLsb' 12 4)
    (h2 : c.extractLsb' 6 6 = d.extractLsb' 6 6) (h3 : c.extractLsb' 0 6 = d.extractLsb' 0 6) : c = d := by
  have hsplit (x : Half) : x = x.extractLsb' 12 4 ++ x.extractLsb' 6 6 ++ x.extractLsb' 0 6 := by
    iterate 2 rw [BitVec.extractLsb'_append_extractLsb'_eq_extractLsb' (by rfl)]
    exact BitVec.extractLsb'_eq_self.symm
  rw [hsplit c, hsplit d, h1, h2, h3]

end Sys2Proof.Machine

namespace Sys2Proof.Proofs

open Sys2Proof.Machine

/-- Settles O51. -/
theorem crcByteIsEightShiftSteps : Obligations.CrcByteIsEightShiftSteps := by
  unfold Obligations.CrcByteIsEightShiftSteps
  exact ⟨fun c b => rfl, crcByte_xor⟩

/-- Settles O52. -/
theorem streamingPortFoldsBytes : Obligations.StreamingPortFoldsBytes := by
  unfold Obligations.StreamingPortFoldsBytes
  intro v vs rest s hidle hin
  obtain ⟨t, hrun, ht, hbytes⟩ := runSteps_crcin vs (rest := rest) (s := State.record (hostWrite 0x01C v)
    { s with inputs := vs.map (hostWrite 0x020) ++ rest, crcval := v.extractLsb' 0 16 }) hidle rfl
  have hfirst := runSteps_succ (step_crcval hidle hin) vs.length
  rw [Nat.add_comm]
  exact ⟨t, hfirst.trans hrun, ht, hbytes⟩

/-- Settles O54. -/
theorem codeCharactersCarryTheValue : Obligations.CodeCharactersCarryTheValue := by
  unfold Obligations.CodeCharactersCarryTheValue
  refine ⟨fun c => rfl, fun c => ?range, fun c d h => ?injective⟩
  case range =>
    obtain ⟨l1, u1⟩ := codeChar_range (by decide) (c.extractLsb' 12 4)
    obtain ⟨l2, u2⟩ := codeChar_range (by decide) (c.extractLsb' 6 6)
    obtain ⟨l3, u3⟩ := codeChar_range (by decide) (c.extractLsb' 0 6)
    exact ⟨l1, u1, l2, u2, l3, u3⟩
  case injective =>
    obtain ⟨h1, h23⟩ := Prod.ext_iff.1 h
    obtain ⟨h2, h3⟩ := Prod.ext_iff.1 h23
    exact half_ext_parts (codeChar_injective (by decide) h1) (codeChar_injective (by decide) h2)
      (codeChar_injective (by decide) h3)

end Sys2Proof.Proofs
end

