-- ==== Sys2Proof/Proofs/Frames.lean ====
section
/-! PROOFS. What changes a flag, a buffer, the role or the operands of a running command, and when a byte is handed
over: read off the effects of an input. -/

namespace Sys2Proof.Machine

/-! ### Flags (20_memory.md R65) -/

theorem CommandEffect.keepsFlag {s t : State} {i : Instr} (h : CommandEffect s i t) {k : Nat}
    (hk : s.intstat.getLsbD k = true) : t.intstat.getLsbD k = true := by
  cases h <;> simp [hk]

/-- Only a write of a one to INTSTAT clears a flag. -/
theorem WriteEffect.keepsFlag {s t : State} {r : Reg} {v : Word} (h : WriteEffect s r v t) {k : Nat}
    (hk : s.intstat.getLsbD k = true) :
    t.intstat.getLsbD k = true ∨ (r = .intstat ∧ v.getLsbD k = true) := by
  cases h with
  | intstat =>
    by_cases hv : v.getLsbD k = true
    · exact .inr ⟨rfl, hv⟩
    · have hlt : k < 5 := BitVec.lt_of_getLsbD hk
      exact .inl (by simp [getLsbD_writeIntstat v s hlt, hk, hv])
  | command _ _ hcmd => exact .inl (hcmd.keepsFlag hk)
  | locked _ _ => exact .inl (by simp [hk])
  | illegal _ => exact .inl (by simp [hk])
  | _ => exact .inl hk

/-- Only a reset and a write of a one to INTSTAT clear a flag. -/
theorem InputEffect.keepsFlag {s t : State} {i : Input} (h : InputEffect s i t) {k : Nat}
    (hk : s.intstat.getLsbD k = true) :
    t.intstat.getLsbD k = true ∨ i = .reset ∨
      ∃ off v, i = .host (.write off v) ∧ Reg.ofOffset off = .intstat ∧ v.getLsbD k = true := by
  cases h with
  | reset => exact .inr (.inl rfl)
  | write hwrite =>
    rcases hwrite.keepsFlag hk with hkept | ⟨hreg, hv⟩
    · exact .inl hkept
    · exact .inr (.inr ⟨_, _, rfl, hreg, hv⟩)
  | _ => exact .inl (by simp [State.queryAfterMark, State.turnaround, hk])

/-! ### The receive buffer (41_transfer.md R143, R145) -/

theorem CommandEffect.rxbuf_eq {s t : State} {i : Instr} (h : CommandEffect s i t) : t.rxbuf = s.rxbuf := by
  cases h <;> rfl

theorem WriteEffect.rxbuf_eq {s t : State} {r : Reg} {v : Word} (h : WriteEffect s r v t) : t.rxbuf = s.rxbuf := by
  cases h with
  | command _ _ hcmd => exact hcmd.rxbuf_eq
  | _ => rfl

/-- Only a reset and an armed receive change the receive buffer. -/
theorem InputEffect.rxbuf_cases {s t : State} {i : Input} (h : InputEffect s i t) :
    i = .reset ∨ t.rxbuf = s.rxbuf ∨
      ∃ b, i = .rxByte b ∧ s.phase = .recv ∧ t.rxbuf = (s.storeByte b).rxbuf := by
  cases h with
  | reset => exact .inl rfl
  | lineEnd hp _ => exact .inr (.inr ⟨_, rfl, hp, rfl⟩)
  | filled hp _ _ => exact .inr (.inr ⟨_, rfl, hp, rfl⟩)
  | stored hp _ _ => exact .inr (.inr ⟨_, rfl, hp, rfl⟩)
  | write hwrite => exact .inr (.inl hwrite.rxbuf_eq)
  | _ => exact .inr (.inl rfl)

/-! ### The role (40_wake_duplex.md R114) -/

/-- The commands that change the role. -/
theorem CommandEffect.role_cases {s t : State} {i : Instr} (h : CommandEffect s i t) :
    t.role = s.role ∨ (i = .dirTx ∧ t.role = .transmit) ∨
      (i = .dirRx ∧ s.txpend = false ∧ t.role = .receive) := by
  cases h with
  | dirTx => exact .inr (.inl ⟨rfl, rfl⟩)
  | dirRx hquiet => exact .inr (.inr ⟨rfl, hquiet, rfl⟩)
  | _ => exact .inl rfl

theorem WriteEffect.role_cases {s t : State} {r : Reg} {v : Word} (h : WriteEffect s r v t) :
    t.role = s.role ∨ (r = .cmd ∧ s.phase = .idle ∧
      (decode v = .command .dirTx ∧ t.role = .transmit ∨
        decode v = .command .dirRx ∧ s.txpend = false ∧ t.role = .receive)) := by
  cases h with
  | command hidle hdec hcmd =>
    rcases hcmd.role_cases with hrole | ⟨rfl, hrole⟩ | ⟨rfl, hquiet, hrole⟩
    · exact .inl hrole
    · exact .inr ⟨rfl, hidle, .inl ⟨hdec, hrole⟩⟩
    · exact .inr ⟨rfl, hidle, .inr ⟨hdec, hquiet, hrole⟩⟩
  | _ => exact .inl rfl

/-- The four places of R114, in its order after the reset: the end of a QUERY's marking, its last `tx_done`, and the
commands DIR.TX and DIR.RX. -/
def RoleChange (s : State) (i : Input) (t : State) : Prop :=
  i = .reset ∨
    (i = .tick ∧ s.phase = .mark ∧ s.cnt = 1 ∧ s.curop = 0x08 ∧ t.role = .transmit) ∨
    (i = .txDone ∧ s.phase = .send ∧ s.curop = 0x08 ∧ s.txpend = true ∧ s.txn.toNat ≤ s.txidx.toNat ∧
      t.role = .receive) ∨
    (∃ off v, i = .host (.write off v) ∧ off &&& 0xFFC = 0x008 ∧ s.phase = .idle ∧
      (decode v = .command .dirTx ∧ t.role = .transmit ∨
        decode v = .command .dirRx ∧ s.txpend = false ∧ t.role = .receive))

theorem InputEffect.role_cases {s t : State} {i : Input} (h : InputEffect s i t) :
    t.role = s.role ∨ RoleChange s i t := by
  cases h with
  | reset => exact .inr (.inl rfl)
  | queryMarked hp hc hop => exact .inr (.inr (.inl ⟨rfl, hp, hc, hop, rfl⟩))
  | turned hp hpend hlast hop => exact .inr (.inr (.inr (.inl ⟨rfl, hp, hop, hpend, hlast, rfl⟩)))
  | write hwrite =>
    rcases hwrite.role_cases with hrole | ⟨hreg, hidle, hcmd⟩
    · exact .inl hrole
    · exact .inr (.inr (.inr (.inr ⟨_, _, rfl, wordMask_of_ofOffset_cmd hreg, hidle, hcmd⟩)))
  | _ => exact .inl rfl

/-! ### The operands of a running command (20_memory.md R57, R73) -/

/-- The implicit operands of a command. -/
def SameOperands (s t : State) : Prop :=
  t.txbuf = s.txbuf ∧ t.breakUs = s.breakUs ∧ t.markUs = s.markUs ∧ t.crcinit = s.crcinit ∧ t.crcval = s.crcval

theorem WriteEffect.sameOperands {s t : State} {r : Reg} {v : Word} (h : WriteEffect s r v t)
    (hbusy : s.phase ≠ .idle) : SameOperands s t := by
  cases h with
  | locked _ _ | ignored _ | inten | intstat => exact ⟨rfl, rfl, rfl, rfl, rfl⟩
  | _ => contradiction

theorem InputEffect.sameOperands {s t : State} {i : Input} (h : InputEffect s i t) (hbusy : s.phase ≠ .idle)
    (hi : i ≠ .reset) : SameOperands s t := by
  cases h with
  | reset => exact absurd rfl hi
  | write hwrite => exact hwrite.sameOperands hbusy
  | _ => exact ⟨rfl, rfl, rfl, rfl, rfl⟩

end Sys2Proof.Machine

namespace Sys2Proof.Proofs

open Sys2Proof.Machine

/-- Settles O27. -/
theorem flagsClearedOnlyByHostOrReset : Obligations.FlagsClearedOnlyByHostOrReset := by
  unfold Obligations.FlagsClearedOnlyByHostOrReset
  intro k s t hstep hset hclear
  rcases step_effect hstep with ⟨-, rfl⟩ | ⟨i, rest, u, hin, heff, rfl⟩
  · simp [hset] at hclear
  · have hkept := heff.keepsFlag (k := k) hset
    rcases hkept.resolve_left (by simpa using hclear) with rfl | ⟨off, v, rfl, hreg, hv⟩
    · exact ⟨rest, .inl hin⟩
    · exact ⟨rest, .inr ⟨off, v, hin, wordMask_of_ofOffset_intstat hreg, hv⟩⟩

/-- Settles O45: the byte stored lies within the buffer, so it reads back and no other byte changes. -/
theorem rxbufWrittenOnlyByArmedReceive : Obligations.RxbufWrittenOnlyByArmedReceive := by
  unfold Obligations.RxbufWrittenOnlyByArmedReceive
  intro s t hinv hstep
  rcases step_effect hstep with ⟨-, rfl⟩ | ⟨i, rest, u, hin, heff, rfl⟩
  · exact .inr (.inl rfl)
  · rcases heff.rxbuf_cases with rfl | hsame | ⟨b, rfl, hp, hstored⟩
    · exact .inl ⟨rest, hin⟩
    · exact .inr (.inl hsame)
    · have hroom : s.rxraw.toNat < 128 := (hinv.recv_line hp).2.2.trans_le hinv.rxmax_le
      have hbuf : u.rxbuf = s.rxbuf.write s.rxraw.toNat b := hstored.trans (if_pos hroom)
      have hread := Memory.read_write hinv.rxbuf_wf s.rxraw.toNat b
      refine .inr (.inr ⟨b, rest, hin, hp, ?_, fun j hj => ?_⟩) <;> rw [record_rxbuf, hbuf, hread]
      · exact if_pos rfl
      · exact if_neg hj

/-- Settles O57. -/
theorem roleChangesOnlyInFourPlaces : Obligations.RoleChangesOnlyInFourPlaces := by
  unfold Obligations.RoleChangesOnlyInFourPlaces
  intro s t hstep hrole
  rcases step_effect hstep with ⟨-, rfl⟩ | ⟨i, rest, u, hin, heff, rfl⟩
  · exact absurd rfl hrole
  · refine ⟨rest, ?_⟩
    rcases heff.role_cases.resolve_left hrole with rfl | ⟨rfl, h⟩ | ⟨rfl, h⟩ | ⟨off, v, rfl, h⟩
    · exact .inl hin
    · exact .inr (.inl ⟨hin, h⟩)
    · exact .inr (.inr (.inl ⟨hin, h⟩))
    · exact .inr (.inr (.inr ⟨off, v, hin, h⟩))

/-- Settles O58. -/
theorem runningCommandInputsAreStable : Obligations.RunningCommandInputsAreStable := by
  unfold Obligations.RunningCommandInputsAreStable
  intro s t hbusy hstep hreset
  rcases step_effect hstep with ⟨-, rfl⟩ | ⟨i, rest, u, hin, heff, rfl⟩
  · exact ⟨rfl, rfl, rfl, rfl, rfl⟩
  · exact heff.sameOperands hbusy fun hi => hreset rest (hi ▸ hin)

end Sys2Proof.Proofs
end

