-- ==== Sys2Proof/Proofs/Runs.lean ====
section
/-! PROOFS. Runs over the pending inputs: what is left pending, the last input of a run, and a property that counts
the ticks of a run. -/

namespace Sys2Proof.Machine

/-- A step leaves the inputs behind the one it takes pending. -/
theorem step_inputs {s t : State} {i : Input} {rest : List Input} (hin : s.inputs = i :: rest)
    (h : step s = .next t) : t.inputs = rest := by
  rcases step_cases h with ⟨hnil, -⟩ | ⟨j, rest', u, hin', hu, rfl⟩
  · rw [hin] at hnil
    cases hnil
  · rw [hin] at hin'
    cases hin'
    exact handle_inputs hu

/-- With no input pending a run of any length changes nothing. -/
theorem runSteps_nil {s : State} (h : s.inputs = []) (n : Nat) : runSteps n s = .next s := by
  induction n with
  | zero => rfl
  | succ n ih => rw [runSteps_succ (step_nil h), ih]

/-- Every run answers a next state, with the inputs it did not take pending. -/
theorem runSteps_next (n : Nat) (s : State) : ∃ t, runSteps n s = .next t ∧ t.inputs = s.inputs.drop n := by
  induction n generalizing s with
  | zero => exact ⟨s, rfl, rfl⟩
  | succ n ih =>
    obtain ⟨u, hu⟩ := step_next s
    obtain ⟨t, hrun, ht⟩ := ih u
    refine ⟨t, (runSteps_succ hu n).trans hrun, ht.trans ?_⟩
    cases hin : s.inputs with
    | nil =>
      obtain rfl : s = u := Host.Outcome.next.inj ((step_nil hin).symm.trans hu)
      rw [hin, List.drop_nil, List.drop_nil]
    | cons i rest => rw [step_inputs hin hu, List.drop_succ_cons]

/-- The last of the first `n` entries of a list, and what stands before and behind it. -/
theorem take_eq_append_of_getLast? {α : Type} {l : List α} {n : Nat} {a : α} (h : (l.take n).getLast? = some a) :
    ∃ m, l.take n = l.take m ++ [a] ∧ l.drop m = a :: l.drop n ∧ (n = m + 1 ∨ l.drop n = []) ∧ m + 1 ≤ n := by
  induction n generalizing l with
  | zero => simp at h
  | succ n ih =>
    cases l with
    | nil => simp at h
    | cons x xs =>
      rw [List.take_succ_cons] at h
      cases hlast : (xs.take n).getLast? with
      | none =>
        have hnil : xs.take n = [] := List.getLast?_eq_none_iff.1 hlast
        obtain rfl : x = a := by simpa [hnil] using h
        have hshort : n = 0 ∨ xs = [] := by simpa using hnil
        refine ⟨0, by simp [hnil], ?_, ?_, by omega⟩ <;> rcases hshort with rfl | rfl <;> simp
      | some b =>
        obtain rfl : b = a := by simpa [List.getLast?_cons, hlast] using h
        obtain ⟨m, htake, hdrop, hend, hle⟩ := ih hlast
        exact ⟨m + 1, by simp [htake], by simp [hdrop], by simpa using hend, by omega⟩

/-- A run up to its last input `i`, and the step that takes `i`. -/
theorem runSteps_last {n : Nat} {s : State} {i : Input} (h : (s.inputs.take n).getLast? = some i) :
    ∃ m u, s.inputs.take n = s.inputs.take m ++ [i] ∧ runSteps m s = .next u ∧ u.inputs = i :: s.inputs.drop n ∧
      ∀ t, step u = .next t → runSteps n s = .next t := by
  obtain ⟨m, htake, hdrop, hend, hle⟩ := take_eq_append_of_getLast? h
  obtain ⟨u, hrun, hin⟩ := runSteps_next m s
  rw [hdrop] at hin
  refine ⟨m, u, htake, hrun, hin, fun t ht => ?_⟩
  have hpast : runSteps (n - (m + 1)) t = .next t := by
    rcases hend with rfl | hnil
    · rw [Nat.sub_self]
      rfl
    · exact runSteps_nil ((step_inputs hin ht).trans hnil) _
  calc runSteps n s
    _ = runSteps (m + (n - (m + 1) + 1)) s := by congr 1; omega
    _ = runSteps (n - (m + 1) + 1) u := runSteps_add hrun _
    _ = runSteps (n - (m + 1)) t := runSteps_succ ht _
    _ = .next t := hpast

/-- The property `P` of the number of ticks so far and the state is kept by every allowed input, as long as the ticks
stay below the bound. -/
def KeptBelow (P : Nat → State → Prop) (allowed : Input → Prop) (bound : Nat) : Prop :=
  ∀ {k : Nat} {u t : State} {i : Input} {rest : List Input}, P k u → allowed i → k + [i].count .tick < bound →
    InputEffect { u with inputs := rest } i t → P (k + [i].count .tick) (t.record i)

/-- Such a property holds after a run of allowed inputs with fewer ticks than the bound. -/
theorem runSteps_ticks {P : Nat → State → Prop} {allowed : Input → Prop} {bound : Nat}
    (hkeep : KeptBelow P allowed bound)
    {n k : Nat} {s : State} (hP : P k s) (hallowed : ∀ i ∈ s.inputs.take n, allowed i)
    (hbound : k + (s.inputs.take n).count .tick < bound) :
    ∃ t, runSteps n s = .next t ∧ P (k + (s.inputs.take n).count .tick) t := by
  induction n generalizing k s with
  | zero => exact ⟨s, rfl, by simpa using hP⟩
  | succ n ih =>
    obtain ⟨u, hu⟩ := step_next s
    rcases step_effect hu with ⟨hnil, rfl⟩ | ⟨i, rest, v, hin, heff, rfl⟩
    · exact ⟨u, runSteps_nil hnil _, by simpa [hnil] using hP⟩
    · have hcount : (s.inputs.take (n + 1)).count .tick = [i].count .tick + (rest.take n).count .tick := by
        rw [hin, List.take_succ_cons, List.count_cons, List.count_singleton, Nat.add_comm]
      have hrest : (v.record i).inputs = rest := step_inputs hin hu
      rw [hin, List.take_succ_cons, List.forall_mem_cons] at hallowed
      rw [hcount, ← Nat.add_assoc] at hbound ⊢
      have hone := hkeep hP hallowed.1 (by omega) heff
      obtain ⟨t, hrun, ht⟩ := ih hone (by rw [hrest]; exact hallowed.2) (by rw [hrest]; exact hbound)
      rw [hrest] at ht
      exact ⟨t, (runSteps_succ hu n).trans hrun, ht⟩

/-- A run whose last input is the tick that reaches the bound: the property holds before that tick. -/
theorem runSteps_ticks_last {P : Nat → State → Prop} {allowed : Input → Prop} {bound : Nat}
    (hkeep : KeptBelow P allowed bound) {n : Nat} {s : State} (hP : P 0 s)
    (hallowed : ∀ i ∈ s.inputs.take n, allowed i) (hcount : (s.inputs.take n).count .tick = bound)
    (hlast : (s.inputs.take n).getLast? = some .tick) :
    ∃ u, P (bound - 1) u ∧ u.inputs = .tick :: s.inputs.drop n ∧ ∀ t, step u = .next t → runSteps n s = .next t := by
  obtain ⟨m, u, htake, hrun, hin, hend⟩ := runSteps_last hlast
  rw [htake] at hcount hallowed
  have hticks : (s.inputs.take m).count .tick + 1 = bound := by simpa using hcount
  have hbound : 0 + (s.inputs.take m).count .tick < bound := by omega
  obtain ⟨u', hrun', hu'⟩ := runSteps_ticks hkeep hP (fun i hi => hallowed i (List.mem_append_left _ hi)) hbound
  obtain rfl : u' = u := Host.Outcome.next.inj (hrun'.symm.trans hrun)
  have hk : 0 + (s.inputs.take m).count .tick = bound - 1 := by omega
  exact ⟨u', hk ▸ hu', hin, hend⟩

end Sys2Proof.Machine
end

