-- ==== Sys2Proof/Proofs/BytesInFlight.lean ====
section
/-! PROOFS. The bytes handed over to the transport and the byte in flight (10_state.md R40, R42, 41_transfer.md
R132). -/

namespace Sys2Proof.Machine

/-- The entry of a step is no byte handed over. -/
theorem txBytesOf_after (i : Input) (l : Lines) (t : List Output) :
    txBytesOf (.after i l :: t) = txBytesOf t := rfl

/-- What a step on the input `i` does to the byte in flight. -/
inductive Flight (s : State) (i : Input) (t : State) : Prop
  /-- Nothing: no byte is handed over, and `i` is no `tx_done` of a byte in flight. -/
  | stays (hbytes : txBytesOf t.trace = txBytesOf s.trace) (hpend : t.txpend = s.txpend)
      (hdone : i = .txDone → s.txpend = false)
  /-- The byte in flight is gone: flushed, or lost to an error or a reset. -/
  | ends (hbytes : txBytesOf t.trace = txBytesOf s.trace) (hpend : t.txpend = false)
      (hwhy : i = .reset ∨ i = .terr ∨ (i = .txDone ∧ s.txpend = true))
  /-- A byte is handed over where none is in flight. -/
  | starts (b : Byte) (hbytes : txBytesOf t.trace = txBytesOf s.trace ++ [b]) (hpend : t.txpend = true)
      (hrole : t.role = .transmit) (hpin : t.pinmode = .periph) (hquiet : s.txpend = false) (hdone : i ≠ .txDone)
  /-- The next byte follows the one flushed. -/
  | follows (b : Byte) (hbytes : txBytesOf t.trace = txBytesOf s.trace ++ [b]) (hpend : t.txpend = true)
      (hrole : t.role = .transmit) (hpin : t.pinmode = .periph) (hflight : s.txpend = true) (hdone : i = .txDone)

/-- A SEND hands over its first byte; no other command hands one over at its issue. -/
theorem CommandEffect.flight {s t : State} {j : Instr} {i : Input} (h : CommandEffect s j t) (hi : i ≠ .txDone)
    (hpin : s.pinmode = .periph) : Flight s i t := by
  cases h with
  | send _ hrole hquiet => exact .starts _ rfl rfl hrole hpin hquiet hi
  | _ => exact .stays rfl rfl fun h => absurd h hi

theorem WriteEffect.flight {s t : State} {r : Reg} {v : Word} {i : Input} (h : WriteEffect s r v t) (hinv : Inv s)
    (hi : i ≠ .txDone) : Flight s i t := by
  cases h with
  | command hidle _ hcmd => exact hcmd.flight hi (hinv.lineReleased (by simp [hidle])).periph
  | _ => exact .stays rfl rfl fun h => absurd h hi

/-- Bytes are handed over by a SEND's issue, at the end of a QUERY's marking, and after a `tx_done` in SEND. -/
theorem InputEffect.flight {s t : State} {i : Input} (h : InputEffect s i t) (hinv : Inv s) : Flight s i t := by
  cases h with
  | reset => exact .ends rfl rfl (.inl rfl)
  | terrRecv _ => exact .ends rfl rfl (.inr (.inl rfl))
  | terrBusy _ _ => exact .ends rfl rfl (.inr (.inl rfl))
  | terrIdle _ => exact .ends rfl rfl (.inr (.inl rfl))
  | noneInFlight hquiet => exact .stays rfl rfl fun _ => hquiet
  | flushed _ hpend => exact .ends rfl rfl (.inr (.inr ⟨rfl, hpend⟩))
  | sendDone _ hpend _ _ => exact .ends rfl rfl (.inr (.inr ⟨rfl, hpend⟩))
  | turned _ hpend _ _ => exact .ends rfl rfl (.inr (.inr ⟨rfl, hpend⟩))
  | sendOther _ hpend _ _ => exact .ends rfl rfl (.inr (.inr ⟨rfl, hpend⟩))
  | sentNext hp hpend _ =>
    exact .follows _ rfl rfl (hinv.send_line hp).1 (hinv.lineReleased (by simp [hp])).periph hpend rfl
  | queryMarked hp _ _ =>
    exact .starts _ rfl rfl rfl (hinv.lineReleased (by simp [hp])).periph (hinv.wake_flushed (.inr hp)) (by simp)
  | write hwrite => exact hwrite.flight hinv (by simp)
  | _ => exact .stays rfl rfl (by simp)

/-- One step's account: each byte handed over is in flight until its `tx_done`. -/
theorem Flight.account {s t : State} {i : Input} (h : Flight s i t) (hterr : i ≠ .terr) (hreset : i ≠ .reset)
    (hduty : keepsDuty i s) :
    (txBytesOf t.trace).length + s.txpend.toNat =
      (txBytesOf s.trace).length + [i].count .txDone + t.txpend.toNat := by
  cases h with
  | stays hbytes hpend hdone =>
    have hi : i ≠ .txDone := by
      rintro rfl
      exact absurd (hdone rfl) (by simpa [keepsDuty] using hduty)
    simp [hbytes, hpend, hi]
  | ends hbytes hpend hwhy =>
    obtain ⟨rfl, hflight⟩ := (hwhy.resolve_left hreset).resolve_left hterr
    simp [hbytes, hpend, hflight]
  | starts b hbytes hpend _ _ hquiet hdone => simp [hbytes, hpend, hquiet, hdone]
  | follows b hbytes hpend _ _ hflight hdone => simp [hbytes, hpend, hflight, hdone]

/-- The account of a run. -/
theorem runSteps_account {n : Nat} {s t : State} (hinv : Inv s) (hlen : n ≤ s.inputs.length) (hduty : dutiesKept n s)
    (hterr : Input.terr ∉ s.inputs.take n) (hreset : Input.reset ∉ s.inputs.take n)
    (hrun : runSteps n s = .next t) :
    (txBytesOf t.trace).length + s.txpend.toNat =
      (txBytesOf s.trace).length + (s.inputs.take n).count .txDone + t.txpend.toNat := by
  induction n generalizing s with
  | zero =>
    cases hrun
    simp
  | succ n ih =>
    obtain ⟨u, hu⟩ := step_next s
    rw [runSteps_succ hu] at hrun
    obtain ⟨hfirst, hrest⟩ := hduty
    rcases step_effect hu with ⟨hnil, -⟩ | ⟨i, rest, v, hin, heff, rfl⟩
    · simp [hnil] at hlen
    · have hrest' : (v.record i).inputs = rest := step_inputs hin hu
      rw [hin, List.take_succ_cons, List.mem_cons, not_or] at hterr hreset
      rw [hin, List.length_cons, Nat.add_le_add_iff_right, ← hrest'] at hlen
      rw [← hrest'] at hterr hreset
      have hone := (heff.flight { hinv with }).account (Ne.symm hterr.1) (Ne.symm hreset.1) (hfirst i rest hin)
      have hmany := ih (inv_step hinv hu) hlen (hrest _ hu) hterr.2 hreset.2 hrun
      have hcount : (s.inputs.take (n + 1)).count .txDone =
          [i].count .txDone + ((v.record i).inputs.take n).count .txDone := by
        rw [hin, hrest', List.take_succ_cons, List.count_cons, List.count_singleton, Nat.add_comm]
      simp only [record_trace, txBytesOf_after, record_txpend] at hone hmany
      omega

end Sys2Proof.Machine

namespace Sys2Proof.Proofs

open Sys2Proof.Machine

/-- Settles O39. -/
theorem emittedByteIsInFlight : Obligations.EmittedByteIsInFlight := by
  unfold Obligations.EmittedByteIsInFlight
  intro s t hinv hstep hnew
  rcases step_effect hstep with ⟨-, rfl⟩ | ⟨i, rest, u, hin, heff, rfl⟩
  · exact absurd rfl hnew
  · cases heff.flight { hinv with } with
    | stays hbytes _ _ => exact absurd hbytes hnew
    | ends hbytes _ _ => exact absurd hbytes hnew
    | starts b hbytes hpend hrole hpin hquiet _ => exact ⟨⟨b, hbytes⟩, hrole, hpin, hpend, .inl hquiet⟩
    | follows b hbytes hpend hrole hpin _ hdone =>
      exact ⟨⟨b, hbytes⟩, hrole, hpin, hpend, .inr ⟨rest, hdone ▸ hin⟩⟩

/-- Settles O38: the account of one step, added up along the run. -/
theorem oneTxDonePerByte : Obligations.OneTxDonePerByte := by
  unfold Obligations.OneTxDonePerByte
  intro n s t hinv hlen hduty hterr hreset hrun
  exact runSteps_account hinv hlen hduty hterr hreset hrun

end Sys2Proof.Proofs
end

