-- ==== Sys2Proof/Proofs/LastTicks.lean ====
section
/-! PROOFS. `strip`, and what the last tick of a marking, a transmission and a receive does (40_wake_duplex.md R103,
41_transfer.md R135, R141, R144). -/

namespace Sys2Proof.Machine

/-- `k` bytes are left of the first `n` once their trailing CR and LF bytes are removed. -/
structure Stripped (m : Memory) (n k : Nat) : Prop where
  le : k ≤ n
  removed : ∀ j, k ≤ j → j < n → m.read j = 0x0D ∨ m.read j = 0x0A
  kept : 0 < k → m.read (k - 1) ≠ 0x0D ∧ m.read (k - 1) ≠ 0x0A

/-- `strip` removes trailing line ends, one by one (41_transfer.md R141). -/
theorem stripped_strip (m : Memory) (n : Nat) : Stripped m n (strip m n) := by
  induction n with
  | zero => exact ⟨Nat.le_refl 0, fun j _ hj => absurd hj (Nat.not_lt_zero j), fun h => absurd h (Nat.lt_irrefl 0)⟩
  | succ n ih =>
    simp only [strip]
    split
    case isTrue hend =>
      refine ⟨by have := ih.le; omega, fun j hkj hjn => ?_, ih.kept⟩
      rcases Nat.lt_succ_iff_lt_or_eq.1 hjn with hlt | rfl
      · exact ih.removed j hkj hlt
      · exact (isLineEnd_iff _).1 hend
    case isFalse hend =>
      refine ⟨Nat.le_refl _, fun j hkj hjn => by omega, fun _ => ?_⟩
      exact not_or.1 (mt (isLineEnd_iff _).2 hend)

/-- The longer of two stripped lengths would keep a byte that the shorter removes. -/
theorem Stripped.not_lt {m : Memory} {n k l : Nat} (hk : Stripped m n k) (hl : Stripped m n l) : ¬ k < l := by
  intro hlt
  have hle := hl.le
  obtain ⟨hcr, hlf⟩ := hl.kept (by omega)
  rcases hk.removed (l - 1) (by omega) (by omega) with h | h
  · exact hcr h
  · exact hlf h

theorem strip_eq_iff (m : Memory) (n k : Nat) : strip m n = k ↔ Stripped m n k := by
  constructor
  · rintro rfl
    exact stripped_strip m n
  · intro h
    have h1 := h.not_lt (stripped_strip m n)
    have h2 := (stripped_strip m n).not_lt h
    omega

/-! The last tick of marking ends the WAKE, or starts the QUERY's transmission; both write the counter anew (R103). -/

theorem onTick_mark_last {s : State} (hp : s.phase = .mark) (hc : s.cnt = 1) : onTick s = s.countDown.endMark := by
  simp only [onTick, hp]
  exact if_pos (countDown_cnt_of_one hc)

theorem onTick_wake_last {s : State} (hp : s.phase = .mark) (hc : s.cnt = 1) (hop : s.curop = 0x01) :
    onTick s = s.complete .ok := (onTick_mark_last hp hc).trans (if_pos hop)

theorem onTick_query_last {s : State} (hp : s.phase = .mark) (hc : s.cnt = 1) (hop : s.curop = 0x08) :
    onTick s = s.queryAfterMark := by
  have hwake : s.curop ≠ 0x01 := by rw [hop]; decide
  exact (onTick_mark_last hp hc).trans ((if_neg hwake).trans (if_pos hop))

/-- The last tick of a transmission's timer (R135). -/
theorem onTick_send_last {s : State} (hp : s.phase = .send) (hc : s.cnt = 1) : onTick s = s.complete .txTimeout := by
  simp only [onTick, hp]
  exact if_pos (countDown_cnt_of_one hc)

/-- The stripped length is 0 exactly where nothing is left (it fits 8 bits). -/
theorem stripLine_rxlen_eq_zero_iff (s : State) : s.stripLine.rxlen = 0 ↔ strip s.rxbuf s.rxraw.toNat = 0 := by
  rw [← stripLine_rxlen_toNat]
  exact BitVec.toNat_eq

/-- The last tick of a receive's timer (R144): its result is by what was stored. -/
theorem onTick_recv_last {s : State} (hp : s.phase = .recv) (hc : s.cnt = 1) :
    onTick s = s.stripLine.complete (if strip s.rxbuf s.rxraw.toNat = 0 then .noDev else .partialLine) := by
  simp only [onTick, hp]
  refine Eq.trans (if_pos (countDown_cnt_of_one hc)) ?_
  have hlen : s.countDown.stripLine.rxlen = 0 ↔ strip s.rxbuf s.rxraw.toNat = 0 := stripLine_rxlen_eq_zero_iff s
  simp only [hlen]
  split <;> rfl

/-! The steps that take these ticks. -/

section
variable {s : State} {rest : List Input} (hin : s.inputs = .tick :: rest)
include hin

theorem step_wake_last (hp : s.phase = .mark) (hc : s.cnt = 1) (hop : s.curop = 0x01) :
    step s = .next (State.record .tick (State.complete .ok { s with inputs := rest })) :=
  step_of_handle hin (congrArg Host.Outcome.next (onTick_wake_last (s := { s with inputs := rest }) hp hc hop))

theorem step_query_last (hp : s.phase = .mark) (hc : s.cnt = 1) (hop : s.curop = 0x08) :
    step s = .next (State.record .tick (State.queryAfterMark { s with inputs := rest })) :=
  step_of_handle hin (congrArg Host.Outcome.next (onTick_query_last (s := { s with inputs := rest }) hp hc hop))

theorem step_send_last (hp : s.phase = .send) (hc : s.cnt = 1) :
    step s = .next (State.record .tick (State.complete .txTimeout { s with inputs := rest })) :=
  step_of_handle hin (congrArg Host.Outcome.next (onTick_send_last (s := { s with inputs := rest }) hp hc))

theorem step_recv_last (hp : s.phase = .recv) (hc : s.cnt = 1) :
    step s = .next (State.record .tick ((State.stripLine { s with inputs := rest }).complete
      (if strip s.rxbuf s.rxraw.toNat = 0 then .noDev else .partialLine))) :=
  step_of_handle hin (congrArg Host.Outcome.next (onTick_recv_last (s := { s with inputs := rest }) hp hc))

end

end Sys2Proof.Machine

namespace Sys2Proof.Proofs

open Sys2Proof.Machine

/-- Settles O41. -/
theorem stripRemovesTrailingLineEnds : Obligations.StripRemovesTrailingLineEnds := by
  unfold Obligations.StripRemovesTrailingLineEnds
  intro m n k
  exact (strip_eq_iff m n k).trans
    ⟨fun ⟨hle, hrem, hkept⟩ => ⟨hle, hrem, hkept⟩, fun ⟨hle, hrem, hkept⟩ => ⟨hle, hrem, hkept⟩⟩

/-- Settles O32. -/
theorem endOfMarking : Obligations.EndOfMarking := by
  unfold Obligations.EndOfMarking
  intro rest s hin hp hc
  exact ⟨step_wake_last hin hp hc, step_query_last hin hp hc⟩

/-- Settles O37. -/
theorem tickDuringSend : Obligations.TickDuringSend := by
  unfold Obligations.TickDuringSend
  intro rest s hin hp
  exact ⟨step_tick_of_two_le hin (by simp [hp]), step_send_last hin hp⟩

/-- Settles O42. -/
theorem tickDuringRecv : Obligations.TickDuringRecv := by
  unfold Obligations.TickDuringRecv
  intro rest s hin hp len timedOut
  refine ⟨step_tick_of_two_le hin (by simp [hp]), fun hc hlen => ?noDev, fun hc hlen => ?partialLine⟩
  all_goals rw [step_recv_last hin hp hc]
  case noDev =>
    rw [if_pos hlen]
    rfl
  case partialLine =>
    rw [if_neg hlen]
    rfl

end Sys2Proof.Proofs
end

