-- ==== Sys2Proof/Proofs/Durations.lean ====
section
/-! PROOFS. How long a wake sequence and a silent receive take in ticks, whatever else happens (40_wake_duplex.md R105,
R106, 41_transfer.md R144, 70_reset_and_hazards.md R246). -/

namespace Sys2Proof.Machine

/-- The running command and what it works on are the same in `s` and `t`, and no byte is handed over between them. -/
structure SameRun (s t : State) : Prop where
  role : t.role = s.role
  curop : t.curop = s.curop
  rcode : t.rcode = s.rcode
  rop : t.rop = s.rop
  markUs : t.markUs = s.markUs
  rxraw : t.rxraw = s.rxraw
  rxbuf : t.rxbuf = s.rxbuf
  txbuf : t.txbuf = s.txbuf
  txBytes : txBytesOf t.trace = txBytesOf s.trace

theorem SameRun.refl (s : State) : SameRun s s := ⟨rfl, rfl, rfl, rfl, rfl, rfl, rfl, rfl, rfl⟩

theorem SameRun.trans {s t u : State} (h : SameRun s t) (h' : SameRun t u) : SameRun s u :=
  ⟨h'.role.trans h.role, h'.curop.trans h.curop, h'.rcode.trans h.rcode, h'.rop.trans h.rop,
    h'.markUs.trans h.markUs, h'.rxraw.trans h.rxraw, h'.rxbuf.trans h.rxbuf, h'.txbuf.trans h.txbuf,
    h'.txBytes.trans h.txBytes⟩

/-- The phase with its line and its counter stand where they were. -/
structure Unmoved (s t : State) : Prop extends SameRun s t where
  phase : t.phase = s.phase
  pinmode : t.pinmode = s.pinmode
  level : t.level = s.level
  cnt : t.cnt = s.cnt

theorem WriteEffect.unmoved {s t : State} {r : Reg} {v : Word} (h : WriteEffect s r v t)
    (hbusy : s.phase ≠ .idle) : Unmoved s t := by
  have hsame : SameRun s s := SameRun.refl s
  cases h with
  | locked _ _ | ignored _ | inten | intstat => exact ⟨{ hsame with }, rfl, rfl, rfl, rfl⟩
  | _ => contradiction

/-- Any input but a transport error and a reset. -/
def Harmless (i : Input) : Prop := i ≠ .terr ∧ i ≠ .reset

/-- In BREAK, MARK and a RECV that gets no byte, only a tick moves the phase. -/
theorem InputEffect.unmoved {s t : State} {i : Input} (h : InputEffect s i t) (hi : Harmless i) (htick : i ≠ .tick)
    (hbusy : s.phase ≠ .idle) (hsend : s.phase ≠ .send) (hrecv : s.phase = .recv → ∀ b, i ≠ .rxByte b) :
    Unmoved s t := by
  have hsame : SameRun s s := SameRun.refl s
  cases h with
  | terrRecv _ | terrBusy _ _ | terrIdle _ => exact absurd rfl hi.1
  | reset => exact absurd rfl hi.2
  | lineEnd hp _ | filled hp _ _ | stored hp _ _ => exact absurd rfl (hrecv hp _)
  | sentNext hp _ _ | sendDone hp _ _ _ | turned hp _ _ _ | sendOther hp _ _ _ => exact absurd hp hsend
  | dropped _ | noneInFlight _ | flushed _ _ | read => exact ⟨{ hsame with }, rfl, rfl, rfl, rfl⟩
  | write hwrite => exact hwrite.unmoved hbusy
  | _ => exact absurd rfl htick

/-- A tick that does not end the command sets no flag. -/
theorem InputEffect.intstat_of_tick {s t : State} (h : InputEffect s .tick t) (hbusy : t.phase ≠ .idle) :
    t.intstat = s.intstat := by
  cases h with
  | wakeDone _ _ _ => exact absurd rfl hbusy
  | sendTimeout _ _ => exact absurd rfl hbusy
  | recvTimeout _ _ _ => exact absurd rfl hbusy
  | _ => rfl

/-- The number a counter not at zero shows after a tick. -/
theorem toNat_countDown {s : State} (h : 1 ≤ s.cnt.toNat) : s.countDown.cnt.toNat + 1 = s.cnt.toNat := by
  rw [countDown_cnt]
  bv_omega

theorem eq_one_of_toNat {c : Word} (h : c.toNat = 1) : c = 1 := BitVec.eq_of_toNat_eq h

/-- `k` ticks into a wake sequence that started its break in the state `s` (40_wake_duplex.md R105). -/
inductive WakeProgress (s : State) (k : Nat) (t : State) : Prop
  | inBreak (hsame : SameRun s t) (hp : t.phase = .brk) (hpin : t.pinmode = .gpio) (hlevel : t.level = .high)
      (hcnt : t.cnt.toNat + k = s.cnt.toNat) (hk : k < s.cnt.toNat)
  | inMark (hsame : SameRun s t) (hp : t.phase = .mark) (hpin : t.pinmode = .periph) (hlevel : t.level = .low)
      (hcnt : t.cnt.toNat + k = s.cnt.toNat + s.markUs.toNat) (hk : s.cnt.toNat ≤ k)

theorem WakeProgress.sameRun {s t : State} {k : Nat} (h : WakeProgress s k t) : SameRun s t := by
  cases h <;> assumption

theorem WakeProgress.phase {s t : State} {k : Nat} (h : WakeProgress s k t) : t.phase = .brk ∨ t.phase = .mark := by
  cases h with
  | inBreak _ hp => exact .inl hp
  | inMark _ hp => exact .inr hp

theorem WakeProgress.unmoved {s t u : State} {k : Nat} (h : WakeProgress s k t) (hu : Unmoved t u) :
    WakeProgress s k u := by
  obtain ⟨hrun, hphase, hpinmode, hlev, hcount⟩ := hu
  cases h with
  | inBreak hsame hp hpin hlevel hcnt hk =>
    exact .inBreak (hsame.trans hrun) (hphase.trans hp) (hpinmode.trans hpin) (hlev.trans hlevel)
      (hcount ▸ hcnt) hk
  | inMark hsame hp hpin hlevel hcnt hk =>
    exact .inMark (hsame.trans hrun) (hphase.trans hp) (hpinmode.trans hpin) (hlev.trans hlevel)
      (hcount ▸ hcnt) hk

/-- A tick before the last of the marking moves the wake sequence by one. (The ticks not named in the proof are those of
other phases.) -/
theorem WakeProgress.tick {s t u : State} {k : Nat} (h : WakeProgress s k t)
    (hk1 : k + 1 < s.cnt.toNat + s.markUs.toNat) (hu : InputEffect t .tick u) : WakeProgress s (k + 1) u := by
  cases h with
  | inBreak hsame hp hpin hlevel hcnt hk =>
    cases hu with
    | counted _ hc =>
      have hdown := toNat_countDown (s := t) (by omega)
      have htwo : t.cnt.toNat ≠ 1 := fun hone => hc (eq_one_of_toNat hone)
      exact .inBreak { hsame with } hp hpin hlevel (by omega) (by omega)
    | breakEnd _ hc =>
      have hone : t.cnt.toNat = 1 := congrArg BitVec.toNat hc
      have hmark : t.endBreak.cnt.toNat = s.markUs.toNat := by
        rw [endBreak_cnt, toNat_setWidth_duration, hsame.markUs]
      exact .inMark { hsame with } rfl rfl rfl (by omega) (by omega)
    | _ => simp_all
  | inMark hsame hp hpin hlevel hcnt hk =>
    cases hu with
    | counted _ _ =>
      have hdown := toNat_countDown (s := t) (by omega)
      exact .inMark { hsame with } hp hpin hlevel (by omega) (by omega)
    | wakeDone _ hc _ | queryMarked _ hc _ | markOther _ hc _ _ =>
      have hone : t.cnt.toNat = 1 := congrArg BitVec.toNat hc
      omega
    | _ => simp_all

/-- Before the last tick of the marking every input keeps the wake sequence going. -/
theorem WakeProgress.input {s t u : State} {k : Nat} {i : Input} (h : WakeProgress s k t) (hi : Harmless i)
    (hbound : k + [i].count .tick < s.cnt.toNat + s.markUs.toNat) (hu : InputEffect t i u) :
    WakeProgress s (k + [i].count .tick) u := by
  by_cases htick : i = .tick
  · subst htick
    exact h.tick hbound hu
  · have hcount : [i].count .tick = 0 := by simp [htick]
    rw [hcount]
    refine h.unmoved (hu.unmoved hi htick ?_ ?_ ?_) <;> rcases h.phase with hp | hp <;> simp [hp]

/-- The inputs of a run that neither errors nor resets. -/
theorem harmless_of_notMem {l : List Input} (hterr : Input.terr ∉ l) (hreset : Input.reset ∉ l) :
    ∀ i ∈ l, Harmless i :=
  fun _ hi => ⟨ne_of_mem_of_not_mem hi hterr, ne_of_mem_of_not_mem hi hreset⟩

/-- `k` ticks into the wake sequence of `s`, with no flag set where nothing but ticks has come (`onlyTicks`). -/
def WakeRun (s : State) (onlyTicks : Prop) (k : Nat) (t : State) : Prop :=
  WakeProgress s k t ∧ (onlyTicks → t.intstat = s.intstat)

theorem wakeRun_kept (s : State) (onlyTicks : Prop) :
    KeptBelow (WakeRun s onlyTicks) (fun i => Harmless i ∧ (onlyTicks → i = .tick))
      (s.cnt.toNat + s.markUs.toNat) := by
  rintro k u t i rest ⟨hprog, hflags⟩ ⟨hi, honly⟩ hbound heff
  have hnow : WakeProgress s k { u with inputs := rest } :=
    hprog.unmoved ⟨{ SameRun.refl u with }, rfl, rfl, rfl, rfl⟩
  have hnext : WakeProgress s (k + [i].count .tick) t := hnow.input hi hbound heff
  refine ⟨hnext.unmoved ⟨{ SameRun.refl t with }, rfl, rfl, rfl, rfl⟩, fun h => ?_⟩
  obtain rfl := honly h
  have hbusy : t.phase ≠ .idle := by rcases hnext.phase with hp | hp <;> simp [hp]
  exact (heff.intstat_of_tick hbusy).trans (hflags h)

/-- The last tick of a wake sequence comes in MARK with one tick to go. -/
theorem WakeProgress.last {s t : State} (h : WakeProgress s (s.cnt.toNat + s.markUs.toNat - 1) t)
    (hmark : 1 ≤ s.markUs.toNat) : t.phase = .mark ∧ t.cnt = 1 ∧ t.pinmode = .periph ∧ t.level = .low := by
  cases h with
  | inBreak _ _ _ _ _ hk => omega
  | inMark _ hp hpin hlevel hcnt _ => exact ⟨hp, eq_one_of_toNat (by omega), hpin, hlevel⟩

/-- `k` ticks into a receive that got no byte since the state `s` (41_transfer.md R144). -/
structure SilentProgress (s : State) (k : Nat) (t : State) : Prop extends SameRun s t where
  phase : t.phase = .recv
  cnt : t.cnt.toNat + k = s.cnt.toNat

theorem SilentProgress.unmoved {s t u : State} {k : Nat} (h : SilentProgress s k t) (hu : Unmoved t u) :
    SilentProgress s k u :=
  { h.toSameRun.trans hu.toSameRun with phase := hu.phase.trans h.phase, cnt := hu.cnt ▸ h.cnt }

/-- A tick before the last of the timer only counts down. -/
theorem SilentProgress.tick {s t u : State} {k : Nat} (h : SilentProgress s k t) (hk : k + 1 < s.cnt.toNat)
    (hu : InputEffect t .tick u) : SilentProgress s (k + 1) u := by
  have hp := h.phase
  have hcnt := h.cnt
  cases hu with
  | counted _ _ =>
    have hdown := toNat_countDown (s := t) (by omega)
    exact { h with cnt := by omega }
  | recvTimeout _ hc _ =>
    have hone : t.cnt.toNat = 1 := congrArg BitVec.toNat hc
    omega
  | _ => simp_all

/-- A silent receive's run, with no flag set where nothing but ticks has come. -/
def SilentRun (s : State) (onlyTicks : Prop) (k : Nat) (t : State) : Prop :=
  SilentProgress s k t ∧ (onlyTicks → t.intstat = s.intstat)

theorem silentRun_kept (s : State) (onlyTicks : Prop) :
    KeptBelow (SilentRun s onlyTicks)
      (fun i => Harmless i ∧ (∀ b, i ≠ .rxByte b) ∧ (onlyTicks → i = .tick)) s.cnt.toNat := by
  rintro k u t i rest ⟨hprog, hflags⟩ ⟨hi, hsilent, honly⟩ hbound heff
  have hnow : SilentProgress s k { u with inputs := rest } := { hprog with }
  have hp : u.phase = .recv := hprog.phase
  have hnext : SilentProgress s (k + [i].count .tick) t := by
    by_cases htick : i = .tick
    · subst htick
      exact hnow.tick hbound heff
    · have hcount : [i].count .tick = 0 := by simp [htick]
      rw [hcount]
      exact hnow.unmoved (heff.unmoved hi htick (by simp [hp]) (by simp [hp]) fun _ => hsilent)
  refine ⟨{ hnext with }, fun h => ?_⟩
  obtain rfl := honly h
  have hbusy : t.phase ≠ .idle := by simp [hnext.phase]
  exact (heff.intstat_of_tick hbusy).trans (hflags h)

/-- The state in which an accepted WAKE starts its break. -/
def wakeStart (rest : List Input) (s : State) : State :=
  State.record (.host (.write 0x008 0x00000001))
    (State.startBreak { State.issued 0x01 { s with inputs := rest } with curop := 0x01 })

/-- A WAKE issued while idle with no byte in flight starts the break (R100). -/
theorem step_wake {rest : List Input} {s : State} (hidle : s.phase = .idle) (hquiet : s.txpend = false)
    (hin : s.inputs = .host (.write 0x008 0x00000001) :: rest) : step s = .next (wakeStart rest s) := by
  have hdec : decode 0x00000001 = .command .wake := (decode_eq_command_iff _ _).2 (by decide)
  have hexec := exec_wake_of_quiet (s := { s with inputs := rest }) hquiet
  rw [step_cmdWrite_of_idle hidle hin rfl, issue_of_command hdec, hexec]
  rfl

/-- A receive that stored nothing but line ends is stripped to nothing. -/
theorem strip_eq_zero {m : Memory} {n : Nat} (h : ∀ j, j < n → m.read j = 0x0D ∨ m.read j = 0x0A) :
    strip m n = 0 :=
  (strip_eq_iff m n 0).2 ⟨Nat.zero_le n, fun j _ hj => h j hj, fun h => absurd h (Nat.lt_irrefl 0)⟩

/-- A stored byte that is no line end is left by the stripping. -/
theorem lt_strip {m : Memory} {n j : Nat} (hj : j < n) (hcr : m.read j ≠ 0x0D) (hlf : m.read j ≠ 0x0A) :
    j < strip m n := by
  by_contra hle
  rcases (stripped_strip m n).removed j (Nat.not_lt.1 hle) hj with h | h
  · exact hcr h
  · exact hlf h

end Sys2Proof.Machine

namespace Sys2Proof.Proofs

open Sys2Proof.Machine

/-- Settles O33. -/
theorem breakThenMarkingDurations : Obligations.BreakThenMarkingDurations := by
  unfold Obligations.BreakThenMarkingDurations
  intro n s hp hpin hlevel hcnt hmark hop hterr hreset ticks
  have hstart : WakeRun s False 0 s := ⟨.inBreak (SameRun.refl s) hp hpin hlevel rfl hcnt, False.elim⟩
  have hallowed : ∀ i ∈ s.inputs.take n, Harmless i ∧ (False → i = .tick) :=
    fun i hi => ⟨harmless_of_notMem hterr hreset i hi, False.elim⟩
  have hrun (hlt : ticks < s.cnt.toNat + s.markUs.toNat) :
      ∃ t, runSteps n s = .next t ∧ WakeProgress s ticks t := by
    obtain ⟨t, ht, hprog, -⟩ := runSteps_ticks (wakeRun_kept s False) hstart hallowed (by rwa [Nat.zero_add])
    exact ⟨t, ht, by rwa [Nat.zero_add] at hprog⟩
  refine ⟨fun hlt => ?inBreak, fun hge hlt => ?inMark, fun htotal hlast => ?ended⟩
  case inBreak =>
    obtain ⟨t, ht, hprog⟩ := hrun (by omega)
    cases hprog with
    | inBreak hsame hp hpin hlevel hcnt _ =>
      exact ⟨t, ht, hp, hpin, hlevel, hsame.role, by omega, hsame.txBytes⟩
    | inMark _ _ _ _ _ hk => omega
  case inMark =>
    obtain ⟨t, ht, hprog⟩ := hrun hlt
    cases hprog with
    | inBreak _ _ _ _ _ hk => omega
    | inMark hsame hp hpin hlevel hcnt _ =>
      exact ⟨t, ht, hp, hpin, hlevel, hsame.role, by omega, hsame.txBytes⟩
  case ended =>
    obtain ⟨u, ⟨hprog, -⟩, hin, hend⟩ := runSteps_ticks_last (wakeRun_kept s False) hstart hallowed htotal hlast
    obtain ⟨hp, hc, hpin, hlevel⟩ := hprog.last hmark
    have hcur : u.curop = s.curop := hprog.sameRun.curop
    rcases hop with hop | hop
    · exact ⟨_, hend _ (step_wake_last hin hp hc (hcur.trans hop)), by simp, by simp, hpin, hlevel, rfl⟩
    · exact ⟨_, hend _ (step_query_last hin hp hc (hcur.trans hop)), by simp [State.queryAfterMark],
        by simp [State.queryAfterMark], hpin, hlevel, rfl⟩

/-- Settles O34. -/
theorem wakeTakesBreakPlusMarkingTicks : Obligations.WakeTakesBreakPlusMarkingTicks := by
  unfold Obligations.WakeTakesBreakPlusMarkingTicks
  intro n rest s hidle hquiet hbreak hmark hin hterr hreset ticks
  have hbcnt : (wakeStart rest s).cnt.toNat = s.breakUs.toNat := toNat_setWidth_duration s.breakUs
  have hrunStart : runSteps (1 + n) s = runSteps n (wakeStart rest s) := by
    rw [Nat.add_comm]
    exact runSteps_succ (step_wake hidle hquiet hin) n
  have hstart : WakeRun (wakeStart rest s) (∀ i ∈ rest.take n, i = .tick) 0 (wakeStart rest s) :=
    ⟨.inBreak (SameRun.refl _) rfl rfl rfl rfl (by omega), fun _ => rfl⟩
  have hallowed : ∀ i ∈ rest.take n, Harmless i ∧ ((∀ i ∈ rest.take n, i = .tick) → i = .tick) :=
    fun i hi => ⟨harmless_of_notMem hterr hreset i hi, fun h => h i hi⟩
  rw [hrunStart, ← hbcnt]
  refine ⟨fun hlt => ?running, fun htotal hlast => ?ended⟩
  case running =>
    have hlt : 0 + ticks < (wakeStart rest s).cnt.toNat + (wakeStart rest s).markUs.toNat := by
      rw [Nat.zero_add]
      exact hlt
    obtain ⟨t, ht, hprog, -⟩ := runSteps_ticks (wakeRun_kept _ _) hstart hallowed hlt
    have hsame := hprog.sameRun
    refine ⟨t, ht, ?_, hsame.curop, hsame.rcode, hsame.role, hsame.txBytes⟩
    rcases hprog.phase with hp | hp <;> simp [hp]
  case ended =>
    obtain ⟨u, ⟨hprog, hflags⟩, huin, hend⟩ :=
      runSteps_ticks_last (wakeRun_kept _ _) hstart hallowed htotal hlast
    obtain ⟨hp, hc, hpin, hlevel⟩ := hprog.last hmark
    have hsame := hprog.sameRun
    have hrun := hend _ (step_wake_last huin hp hc hsame.curop)
    refine ⟨_, hrun, rfl, rfl, rfl, rfl, hsame.rop, hsame.role, hpin, hlevel, hsame.rxbuf, hsame.txbuf, rfl,
      hsame.txBytes, ?_, fun honly => ?_⟩
    · simp [completionFlags, ResultCode.isError, Flag.mask, Flag.bit]
    · exact congrArg (· ||| completionFlags .ok) (hflags honly)

/-- Settles O44. -/
theorem silentReceiveTimesOut : Obligations.SilentReceiveTimesOut := by
  unfold Obligations.SilentReceiveTimesOut
  intro n s hp hcnt hterr hreset hsilent ticks
  have hstart : SilentRun s (∀ i ∈ s.inputs.take n, i = .tick) 0 s :=
    ⟨{ SameRun.refl s with phase := hp, cnt := rfl }, fun _ => rfl⟩
  have hallowed : ∀ i ∈ s.inputs.take n, Harmless i ∧ (∀ b, i ≠ .rxByte b) ∧
      ((∀ i ∈ s.inputs.take n, i = .tick) → i = .tick) :=
    fun i hi =>
      ⟨harmless_of_notMem hterr hreset i hi, fun b => ne_of_mem_of_not_mem hi (hsilent b), fun h => h i hi⟩
  refine ⟨fun hlt => ?running, fun htotal hlast => ?ended⟩
  case running =>
    obtain ⟨t, ht, hprog, -⟩ := runSteps_ticks (silentRun_kept s _) hstart hallowed (by rwa [Nat.zero_add])
    rw [Nat.zero_add] at hprog
    have hleft : t.cnt.toNat + ticks = s.cnt.toNat := hprog.cnt
    exact ⟨t, ht, hprog.phase, hprog.rxraw, hprog.rxbuf, hprog.rcode, by omega⟩
  case ended =>
    obtain ⟨u, ⟨hprog, hflags⟩, huin, hend⟩ :=
      runSteps_ticks_last (silentRun_kept s _) hstart hallowed htotal hlast
    have hone : u.cnt = 1 := eq_one_of_toNat (by have := hprog.cnt; omega)
    have hstrip : strip u.rxbuf u.rxraw.toNat = strip s.rxbuf s.rxraw.toNat := by rw [hprog.rxbuf, hprog.rxraw]
    have hlen : u.stripLine.rxlen.toNat = strip s.rxbuf s.rxraw.toNat := (stripLine_rxlen_toNat u).trans hstrip
    have hrun := hend _ (step_recv_last huin hprog.phase hone)
    rw [hstrip] at hrun
    have herr : completionFlags (if strip s.rxbuf s.rxraw.toNat = 0 then .noDev else .partialLine) = 0x03 :=
      completionFlags_of_error (by split <;> rfl)
    refine ⟨_, hrun, rfl, hprog.rxraw, hprog.rxbuf, hprog.role, rfl, by simp [herr], by simp [herr],
      fun honly => ?flags, fun hends => ⟨?noDev, ?nothing⟩, fun j hj hcr hlf => ⟨?partialLine, ?left⟩⟩
    case flags => rw [record_intstat, complete_intstat, herr, ← hflags honly]; rfl
    case noDev => exact if_pos (strip_eq_zero hends)
    case nothing => exact BitVec.eq_of_toNat_eq (hlen.trans (strip_eq_zero hends))
    case partialLine => exact if_neg (Nat.ne_of_gt (Nat.zero_lt_of_lt (lt_strip hj hcr hlf)))
    case left => exact (lt_strip hj hcr hlf).trans_eq hlen.symm

end Sys2Proof.Proofs
end

