-- ==== Sys2Proof/Proofs/CommandBounds.lean ====
section
/-! PROOFS. The bound on a command's ticks (70_reset_and_hazards.md R246): no input takes more than its own tick off
what is left. -/

namespace Sys2Proof.Machine

/-- The ticks left after a byte is stored, and after the turnaround: a timer for each place still free. -/
theorem timers_of_places (left : Nat) (h : 1 ≤ left) (timer : Nat) : timer + (left - 1) * timer = left * timer := by
  obtain ⟨k, rfl⟩ := Nat.exists_eq_add_of_le' h
  rw [Nat.add_sub_cancel, Nat.add_mul, Nat.one_mul, Nat.add_comm]

section
variable {s : State}

/-! `ticksLeft` in each busy phase. -/

theorem ticksLeft_brk (hp : s.phase = .brk) :
    ticksLeft s = s.cnt.toNat + s.markUs.toNat + ticksAfterMark s := by simp only [ticksLeft, hp]

theorem ticksLeft_mark (hp : s.phase = .mark) : ticksLeft s = s.cnt.toNat + ticksAfterMark s := by
  simp only [ticksLeft, hp]

theorem ticksLeft_send (hp : s.phase = .send) : ticksLeft s = s.cnt.toNat + ticksAfterSend s := by
  simp only [ticksLeft, hp]

theorem ticksLeft_recv (hp : s.phase = .recv) :
    ticksLeft s = s.cnt.toNat + (s.rxmax.toNat - s.rxraw.toNat - 1) * Config.pBtoUs.toNat := by
  simp only [ticksLeft, hp]

theorem ticksAfterMark_query (hop : s.curop = 0x08) :
    ticksAfterMark s = Config.pTtoUs.toNat + s.rxmax.toNat * Config.pBtoUs.toNat := if_pos hop

theorem ticksAfterSend_query (hop : s.curop = 0x08) :
    ticksAfterSend s = s.rxmax.toNat * Config.pBtoUs.toNat := if_pos hop

/-- A running command has ticks left. -/
theorem one_le_ticksLeft (hinv : Inv s) (hbusy : s.phase ≠ .idle) : 1 ≤ ticksLeft s := by
  have hcnt := hinv.cnt_busy hbusy
  unfold ticksLeft
  split
  case h_1 hp => exact absurd hp hbusy
  all_goals omega

/-- A tick of the counter takes one off what is left, in every phase. -/
theorem ticksLeft_countDown (hinv : Inv s) (hbusy : s.phase ≠ .idle) :
    ticksLeft s.countDown + 1 = ticksLeft s := by
  have hdown := toNat_countDown (hinv.cnt_busy hbusy)
  cases hp : s.phase with
  | idle => exact absurd hp hbusy
  | brk =>
    have hafter : ticksAfterMark s.countDown = ticksAfterMark s := rfl
    rw [ticksLeft_brk hp, ticksLeft_brk (s := s.countDown) hp, countDown_markUs, hafter]
    omega
  | mark =>
    have hafter : ticksAfterMark s.countDown = ticksAfterMark s := rfl
    rw [ticksLeft_mark hp, ticksLeft_mark (s := s.countDown) hp, hafter]
    omega
  | send =>
    have hafter : ticksAfterSend s.countDown = ticksAfterSend s := rfl
    rw [ticksLeft_send hp, ticksLeft_send (s := s.countDown) hp, hafter]
    omega
  | recv =>
    rw [ticksLeft_recv hp, ticksLeft_recv (s := s.countDown) hp, countDown_rxmax, countDown_rxraw]
    omega

/-- The end of break leaves the marking and what follows it. -/
theorem ticksLeft_endBreak (hp : s.phase = .brk) (hc : s.cnt = 1) : ticksLeft s.endBreak + 1 = ticksLeft s := by
  have hone : s.cnt.toNat = 1 := congrArg BitVec.toNat hc
  have hafter : ticksAfterMark s.endBreak = ticksAfterMark s := rfl
  rw [ticksLeft_brk hp, ticksLeft_mark (s := s.endBreak) rfl, endBreak_cnt, toNat_setWidth_duration, hafter]
  omega

/-- A QUERY's end of marking leaves its transmission and its receive. -/
theorem ticksLeft_queryAfterMark (hp : s.phase = .mark) (hc : s.cnt = 1) (hop : s.curop = 0x08) :
    ticksLeft s.queryAfterMark + 1 = ticksLeft s := by
  have hone : s.cnt.toNat = 1 := congrArg BitVec.toNat hc
  have hcnt : s.queryAfterMark.cnt = Config.pTtoUs := rfl
  have hafter : ticksAfterSend s.queryAfterMark = s.rxmax.toNat * Config.pBtoUs.toNat := if_pos hop
  rw [ticksLeft_mark hp, ticksLeft_send (s := s.queryAfterMark) rfl, hcnt, hafter, ticksAfterMark_query hop]
  omega

/-- The turnaround leaves the receive, whose timers the transmission counted. -/
theorem ticksLeft_turnaround {u : State} (hp : u.phase = .send) (hop : u.curop = 0x08) (hmax : 1 ≤ u.rxmax.toNat) :
    ticksLeft u.turnaround ≤ ticksLeft u := by
  have htimers := timers_of_places u.rxmax.toNat hmax Config.pBtoUs.toNat
  have hturned : ticksLeft u.turnaround = Config.pBtoUs.toNat + (u.rxmax.toNat - 1) * Config.pBtoUs.toNat := rfl
  rw [ticksLeft_send hp, ticksAfterSend_query hop]
  omega

/-- A stored byte leaves a timer for each place still free. -/
theorem ticksLeft_storeByte (hinv : Inv s) (hp : s.phase = .recv) (hmore : s.rxraw + 1 ≠ s.rxmax) (b : Byte) :
    ticksLeft (s.storeByte b) ≤ ticksLeft s := by
  obtain ⟨-, -, hroom⟩ := hinv.recv_line hp
  have hraw := toNat_rxraw_add_one hroom
  have hne : (s.rxraw + 1).toNat ≠ s.rxmax.toNat := fun heq => hmore (BitVec.eq_of_toNat_eq heq)
  have htimers := timers_of_places (s.rxmax.toNat - s.rxraw.toNat - 1) (by omega) Config.pBtoUs.toNat
  have hplaces : s.rxmax.toNat - (s.rxraw.toNat + 1) - 1 = s.rxmax.toNat - s.rxraw.toNat - 1 - 1 := by omega
  rw [ticksLeft_recv hp, ticksLeft_recv (s := s.storeByte b) hp, storeByte_cnt, storeByte_rxmax, storeByte_rxraw, hraw,
    hplaces]
  omega

end

/-- While busy a register write leaves the ticks as they were. -/
theorem WriteEffect.ticksLeft_eq {s t : State} {r : Reg} {v : Word} (h : WriteEffect s r v t)
    (hbusy : s.phase ≠ .idle) : ticksLeft t = ticksLeft s := by
  cases h with
  | locked _ _ | ignored _ | inten | intstat => rfl
  | _ => contradiction

/-- Every input ends the command or takes at least its own tick off what is left. -/
theorem InputEffect.ticksLeft_le {s t : State} {i : Input} (h : InputEffect s i t) (hinv : Inv s)
    (hbusy : s.phase ≠ .idle) : t.phase = .idle ∨ ticksLeft t + [i].count .tick ≤ ticksLeft s := by
  cases h with
  | reset | terrRecv _ | terrBusy _ _ | lineEnd _ _ | filled _ _ _ | sendDone _ _ _ _ | wakeDone _ _ _
  | sendTimeout _ _ | recvTimeout _ _ _ => exact .inl rfl
  | terrIdle hidle | tickIdle hidle => exact absurd hidle hbusy
  | stored hp _ hmore => exact .inr (ticksLeft_storeByte hinv hp hmore _)
  | turned hp _ _ hop =>
    exact .inr (ticksLeft_turnaround (u := { s with txpend := false }) hp hop (hinv.query_args hop).2)
  | counted _ _ | markOther _ _ _ _ => exact .inr (ticksLeft_countDown hinv hbusy).le
  | breakEnd hp hc => exact .inr (ticksLeft_endBreak hp hc).le
  | queryMarked hp hc hop => exact .inr (ticksLeft_queryAfterMark hp hc hop).le
  | write hwrite => exact .inr (hwrite.ticksLeft_eq hbusy).le
  | dropped _ | noneInFlight _ | flushed _ _ | sentNext _ _ _ | sendOther _ _ _ _ | read => exact .inr le_rfl

/-- A run with as many ticks as are left passes through an idle state. -/
theorem exists_idle_of_ticksAhead {n : Nat} {s : State} (hinv : Inv s) (hlen : n ≤ s.inputs.length)
    (hticks : ticksLeft s ≤ ticksAhead n s) : ∃ k t, k ≤ n ∧ runSteps k s = .next t ∧ t.phase = .idle := by
  induction n generalizing s with
  | zero =>
    have hzero : ticksLeft s ≤ 0 := by simpa [ticksAhead] using hticks
    refine ⟨0, s, Nat.le_refl 0, rfl, ?_⟩
    by_contra hbusy
    have := one_le_ticksLeft hinv hbusy
    omega
  | succ n ih =>
    by_cases hbusy : s.phase = .idle
    · exact ⟨0, s, Nat.zero_le _, rfl, hbusy⟩
    obtain ⟨u, hu⟩ := step_next s
    rcases step_effect hu with ⟨hnil, -⟩ | ⟨i, rest, v, hin, heff, rfl⟩
    · simp [hnil] at hlen
    rcases heff.ticksLeft_le { hinv with } hbusy with hidle | hle
    · exact ⟨1, v.record i, by omega, runSteps_succ hu 0, hidle⟩
    have hrest : (v.record i).inputs = rest := step_inputs hin hu
    have hahead : ticksAhead (n + 1) s = [i].count .tick + ticksAhead n (v.record i) := by
      rw [ticksAhead, ticksAhead, hin, hrest, List.take_succ_cons, List.count_cons, List.count_singleton, Nat.add_comm]
    have hlen' : n ≤ (v.record i).inputs.length := by
      rw [hin, List.length_cons] at hlen
      rw [hrest]
      omega
    have hle : ticksLeft (v.record i) + [i].count .tick ≤ ticksLeft s := hle
    obtain ⟨k, t, hk, hrun, hidle⟩ := ih (inv_step hinv hu) hlen' (by omega)
    exact ⟨k + 1, t, by omega, (runSteps_succ hu k).trans hrun, hidle⟩

end Sys2Proof.Machine

namespace Sys2Proof.Proofs

open Sys2Proof.Machine

/-- Settles O59: the ticks left shrink with every tick, and are R246's bound where a command starts. -/
theorem everyCommandEndsWithinItsBound : Obligations.EveryCommandEndsWithinItsBound := by
  unfold Obligations.EveryCommandEndsWithinItsBound
  refine ⟨fun n s hinv hlen hticks => exists_idle_of_ticksAhead hinv hlen hticks, fun s t hexec hbusy => ?wake,
    fun n s t hexec hbusy => ?send, fun l s t hexec hbusy => ?recv, fun n l s t hexec hbusy => ?query⟩
  case wake =>
    cases exec_effect hexec with
    | refused _ => exact absurd rfl hbusy
    | wake _ =>
      rw [ticksLeft_brk rfl, startBreak_cnt, toNat_setWidth_duration]
      rfl
  case send =>
    cases exec_effect hexec with
    | refused _ => exact absurd rfl hbusy
    | send _ _ _ => rfl
  case recv =>
    cases exec_effect hexec with
    | refused _ => exact absurd rfl hbusy
    | recv hl _ => exact timers_of_places l.toNat ((lInRange_iff l).1 hl).1 Config.pBtoUs.toNat
  case query =>
    cases exec_effect hexec with
    | refused _ => exact absurd rfl hbusy
    | query _ _ _ =>
      rw [ticksLeft_brk rfl, startBreak_cnt, toNat_setWidth_duration, ticksAfterMark_query rfl, ← Nat.add_assoc]
      rfl

end Sys2Proof.Proofs
end

