-- ==== Sys2Proof/Proofs/SameCycle.lean ====
section
/-! PROOFS. The inputs of one clock cycle (60_exceptions.md R207, R214): what its events do to the flags does not
depend on the flags pending before, and the host's write comes last. -/

namespace Sys2Proof.Machine

/-- Every flag of `x` is one of `y`. -/
def FlagsLe (x y : BitVec 5) : Prop := ∀ k, x.getLsbD k = true → y.getLsbD k = true

theorem FlagsLe.or {x y : BitVec 5} (h : FlagsLe x y) (f : BitVec 5) : FlagsLe (x ||| f) (y ||| f) := by
  intro k hk
  rw [BitVec.getLsbD_or, Bool.or_eq_true] at hk ⊢
  exact hk.imp_left (h k)

/-- `u` is the state `s` but for its flags, all of which `s` has, its pending inputs and its trace. -/
def FewerFlags (s u : State) : Prop :=
  ∃ x l tr, u = { s with intstat := x, inputs := l, trace := tr } ∧ FlagsLe x s.intstat

namespace FewerFlags

theorem of_same (s : State) (l : List Input) (tr : List Output) : FewerFlags s { s with inputs := l, trace := tr } :=
  ⟨s.intstat, l, tr, rfl, fun _ h => h⟩

theorem of_none (s : State) : FewerFlags s { s with intstat := 0 } :=
  ⟨0, s.inputs, s.trace, rfl, fun k h => by simp at h⟩

section
variable {s u : State} (h : FewerFlags s u)
include h

theorem flagsLe : FlagsLe u.intstat s.intstat := by
  obtain ⟨x, l, tr, rfl, hle⟩ := h
  exact hle

/-- Neither the pending inputs nor the trace of the larger state count. -/
theorem relabel (l : List Input) (tr : List Output) : FewerFlags { s with inputs := l, trace := tr } u := by
  obtain ⟨x, l', tr', rfl, hle⟩ := h
  exact ⟨x, l', tr', rfl, hle⟩

theorem relabel_right (l : List Input) (tr : List Output) : FewerFlags s { u with inputs := l, trace := tr } := by
  obtain ⟨x, l', tr', rfl, hle⟩ := h
  exact ⟨x, l, tr, rfl, hle⟩

/-! The fields the rules of the events look at. -/

theorem phase : u.phase = s.phase := by obtain ⟨x, l, tr, rfl, -⟩ := h; rfl
theorem busy : u.busy = s.busy := by obtain ⟨x, l, tr, rfl, -⟩ := h; rfl
theorem curop : u.curop = s.curop := by obtain ⟨x, l, tr, rfl, -⟩ := h; rfl
theorem cnt : u.cnt = s.cnt := by obtain ⟨x, l, tr, rfl, -⟩ := h; rfl
theorem txn : u.txn = s.txn := by obtain ⟨x, l, tr, rfl, -⟩ := h; rfl
theorem txidx : u.txidx = s.txidx := by obtain ⟨x, l, tr, rfl, -⟩ := h; rfl
theorem txpend : u.txpend = s.txpend := by obtain ⟨x, l, tr, rfl, -⟩ := h; rfl
theorem rxmax : u.rxmax = s.rxmax := by obtain ⟨x, l, tr, rfl, -⟩ := h; rfl
theorem rxraw : u.rxraw = s.rxraw := by obtain ⟨x, l, tr, rfl, -⟩ := h; rfl
theorem rxlen : u.rxlen = s.rxlen := by obtain ⟨x, l, tr, rfl, -⟩ := h; rfl

/-! The operations of the rules. -/

theorem complete (c : ResultCode) : FewerFlags (s.complete c) (u.complete c) := by
  obtain ⟨x, l, tr, rfl, hle⟩ := h
  exact ⟨_, l, tr, rfl, hle.or (completionFlags c)⟩

theorem setFlag (f : Flag) : FewerFlags (s.setFlag f) (u.setFlag f) := by
  obtain ⟨x, l, tr, rfl, hle⟩ := h
  exact ⟨_, l, tr, rfl, hle.or f.mask⟩

theorem flushed : FewerFlags { s with txpend := false } { u with txpend := false } := by
  obtain ⟨x, l, tr, rfl, hle⟩ := h
  exact ⟨x, l, tr, rfl, hle⟩

theorem countDown : FewerFlags s.countDown u.countDown := by
  obtain ⟨x, l, tr, rfl, hle⟩ := h
  exact ⟨x, l, tr, rfl, hle⟩

theorem endBreak : FewerFlags s.endBreak u.endBreak := by
  obtain ⟨x, l, tr, rfl, hle⟩ := h
  exact ⟨x, l, tr, rfl, hle⟩

theorem queryAfterMark : FewerFlags s.queryAfterMark u.queryAfterMark := by
  obtain ⟨x, l, tr, rfl, hle⟩ := h
  exact ⟨x, l, _, rfl, hle⟩

theorem sendNext : FewerFlags s.sendNext u.sendNext := by
  obtain ⟨x, l, tr, rfl, hle⟩ := h
  exact ⟨x, l, _, rfl, hle⟩

theorem turnaround : FewerFlags s.turnaround u.turnaround := by
  obtain ⟨x, l, tr, rfl, hle⟩ := h
  exact ⟨x, l, tr, rfl, hle⟩

theorem stripLine : FewerFlags s.stripLine u.stripLine := by
  obtain ⟨x, l, tr, rfl, hle⟩ := h
  exact ⟨x, l, tr, rfl, hle⟩

theorem storeByte (b : Byte) : FewerFlags (s.storeByte b) (u.storeByte b) := by
  obtain ⟨x, l, tr, rfl, hle⟩ := h
  exact ⟨x, l, tr, rfl, hle⟩

theorem releaseLine : FewerFlags s.releaseLine u.releaseLine := by
  obtain ⟨x, l, tr, rfl, hle⟩ := h
  exact ⟨x, l, tr, rfl, hle⟩

/-! The events. -/

theorem endMark : FewerFlags s.endMark u.endMark := by
  unfold State.endMark
  rw [h.curop]
  split
  · exact h.complete .ok
  split
  · exact h.queryAfterMark
  · exact h

theorem endSend : FewerFlags s.endSend u.endSend := by
  unfold State.endSend
  rw [h.curop]
  split
  · exact h.complete .ok
  split
  · exact h.turnaround
  · exact h

theorem tickRecv : FewerFlags (tickRecv s) (tickRecv u) := by
  unfold Machine.tickRecv
  dsimp only
  rw [h.countDown.cnt, h.countDown.stripLine.rxlen]
  split
  · split
    · exact h.countDown.stripLine.complete .noDev
    · exact h.countDown.stripLine.complete .partialLine
  · exact h.countDown

theorem onTick : FewerFlags (onTick s) (onTick u) := by
  have hcnt := h.countDown.cnt
  unfold Machine.onTick
  rw [h.phase]
  cases s.phase with
  | idle => exact h
  | brk =>
    unfold tickBreak
    dsimp only
    rw [hcnt]
    split
    · exact h.countDown.endBreak
    · exact h.countDown
  | mark =>
    unfold tickMark
    dsimp only
    rw [hcnt]
    split
    · exact h.countDown.endMark
    · exact h.countDown
  | send =>
    unfold tickSend
    dsimp only
    rw [hcnt]
    split
    · exact h.countDown.complete .txTimeout
    · exact h.countDown
  | recv => exact h.tickRecv

theorem onTxDone : FewerFlags (onTxDone s) (onTxDone u) := by
  cases hpend : s.txpend with
  | false =>
    rw [onTxDone_of_none_inFlight hpend, onTxDone_of_none_inFlight (h.txpend.trans hpend)]
    exact h
  | true =>
    have hpend' := h.txpend.trans hpend
    by_cases hp : s.phase = .send
    · have hmore : u.txidx.toNat < u.txn.toNat ↔ s.txidx.toNat < s.txn.toNat := by rw [h.txidx, h.txn]
      rw [onTxDone_in_send hp hpend, onTxDone_in_send (h.phase.trans hp) hpend', if_congr hmore rfl rfl]
      split
      · exact h.flushed.sendNext
      · exact h.flushed.endSend
    · rw [onTxDone_outside_send hp hpend, onTxDone_outside_send (h.phase.trans_ne hp) hpend']
      exact h.flushed

theorem onRxByte (b : Byte) : FewerFlags (onRxByte b s) (onRxByte b u) := by
  unfold Machine.onRxByte takeByte
  dsimp only
  rw [h.phase, (h.storeByte b).rxraw, (h.storeByte b).rxmax]
  split
  · split
    · exact (h.storeByte b).stripLine.complete .eol
    split
    · exact (h.storeByte b).stripLine.complete .full
    · exact h.storeByte b
  · exact h.setFlag .drop

theorem onTerr : FewerFlags (onTerr s) (onTerr u) := by
  unfold Machine.onTerr
  dsimp only
  rw [h.busy, h.phase]
  split
  · split
    · exact h.stripLine.releaseLine.complete .transport
    · exact h.releaseLine.complete .transport
  · exact (h.setFlag .terr).flushed

/-- An event has the same effect with fewer flags pending, and leaves fewer. -/
theorem handle {i : Input} (hi : ∀ a, i ≠ .host a) {t v : State} (ht : handle i s = .next t)
    (hv : Machine.handle i u = .next v) : FewerFlags t v := by
  cases i with
  | reset => cases ht; cases hv; exact ⟨0, u.inputs, u.trace, rfl, fun _ h => h⟩
  | terr => cases ht; cases hv; exact h.onTerr
  | rxByte b => cases ht; cases hv; exact h.onRxByte b
  | txDone => cases ht; cases hv; exact h.onTxDone
  | tick => cases ht; cases hv; exact h.onTick
  | host a => exact absurd rfl (hi a)

end

end FewerFlags

/-- A run over events, against the same events handled from a state with fewer flags, and from one with more. -/
theorem runSteps_events {es : List Input} (hes : ∀ a, Input.host a ∉ es) {r : List Input} {s : State}
    (hin : s.inputs = es ++ r) :
    ∃ t, runSteps es.length s = .next t ∧ t.inputs = r ∧
      (∀ u, FewerFlags s u → FewerFlags t (afterInputs es u)) ∧
      (∀ u, FewerFlags u s → FewerFlags (afterInputs es u) t) := by
  induction es generalizing s with
  | nil => exact ⟨s, rfl, hin, fun _ h => h, fun _ h => h⟩
  | cons i es ih =>
    have hhead : ∀ a, i ≠ .host a := fun a ha => hes a (ha ▸ List.mem_cons_self)
    have htail : ∀ a, Input.host a ∉ es := fun a ha => hes a (List.mem_cons_of_mem i ha)
    obtain ⟨v, hv⟩ := handle_next i { s with inputs := es ++ r }
    have hstep : step s = .next (v.record i) := step_of_handle hin hv
    obtain ⟨t, hrun, ht, hfewer, hmore⟩ := ih htail (s := v.record i) (step_inputs hin hstep)
    refine ⟨t, (runSteps_succ hstep es.length).trans hrun, ht, fun u hu => ?_, fun u hu => ?_⟩
    all_goals
      obtain ⟨w, hw⟩ := handle_next i u
      rw [afterInputs_cons hw]
    · exact hfewer w (((hu.relabel (es ++ r) s.trace).handle hhead hv hw).relabel v.inputs _)
    · exact hmore w (((hu.relabel_right (es ++ r) s.trace).handle hhead hw hv).relabel_right v.inputs _)

/-- The flags a cycle's events set, by a run that starts with none pending. -/
theorem flagsSetBy_eq {es : List Input} {s t : State} (h : FewerFlags t (afterInputs es { s with intstat := 0 }))
    (h' : FewerFlags (afterInputs es { s with intstat := 0 }) t) (k : Nat) :
    (flagsSetBy es s).getLsbD k = t.intstat.getLsbD k :=
  Bool.eq_iff_iff.2 ⟨h.flagsLe k, h'.flagsLe k⟩

/-- A write of INTSTAT that spares the flags just set. -/
theorem getLsbD_writeIntstat_fresh (fresh : BitVec 5) (v : Word) (s : State) {k : Nat} (hk : k < 5)
    (hle : fresh.getLsbD k = true → s.intstat.getLsbD k = true) :
    (writeIntstat (v &&& ~~~(fresh.setWidth 32)) s).intstat.getLsbD k =
      (fresh.getLsbD k || (s.intstat.getLsbD k && !v.getLsbD k)) := by
  have h32 : k < 32 := by omega
  rw [getLsbD_writeIntstat _ _ hk, BitVec.getLsbD_and, BitVec.getLsbD_not, BitVec.getLsbD_setWidth]
  cases hf : fresh.getLsbD k
  · simp [h32]
  · simp [h32, hle hf]

/-- A step that takes a write of INTSTAT. -/
theorem step_intstat {off : Offset} {v : Word} {rest : List Input} {s : State}
    (hin : s.inputs = .host (.write off v) :: rest) (hoff : Reg.ofOffset off = .intstat) :
    step s = .next (State.record (.host (.write off v)) (writeIntstat v { s with inputs := rest })) :=
  step_of_handle hin (regWrite_of_ofOffset hoff v _)

/-- A byte and a tick, in the order of R214: the byte restarts the timer before the tick (41_transfer.md R143, R144). -/
theorem runSteps_byte_tick {b : Byte} {s : State} (hp : s.phase = .recv) (hmore : s.rxraw.toNat + 1 < s.rxmax.toNat)
    (hmax : s.rxmax.toNat ≤ 128) (hb : b ≠ 0x0A) (hin : s.inputs = [.rxByte b, .tick]) :
    ∃ t, runSteps 2 s = .next t ∧ t.phase = .recv ∧ t.rxraw = s.rxraw + 1 ∧ t.cnt = Config.pBtoUs - 1 ∧
      t.rcode = s.rcode ∧ t.rxbuf = s.rxbuf.write s.rxraw.toNat b ∧ t.inputs = [] := by
  obtain ⟨-, -, hstored⟩ := Proofs.rxByteDuringRecv b [.tick] s hin hp (by omega) hmax
  obtain ⟨u, hu, huin, hup, hucnt, huraw, hucode, hubuf⟩ : ∃ u, step s = .next u ∧ u.inputs = [.tick] ∧
      u.phase = .recv ∧ u.cnt = Config.pBtoUs ∧ u.rxraw = s.rxraw + 1 ∧ u.rcode = s.rcode ∧
      u.rxbuf = s.rxbuf.write s.rxraw.toNat b := ⟨_, hstored hb hmore, rfl, hp, rfl, rfl, rfl, rfl⟩
  have hleft : 2 ≤ u.cnt.toNat := by
    rw [hucnt]
    decide
  have hsecond := step_tick_of_two_le huin (by simp [hup]) hleft
  refine ⟨_, (runSteps_succ hu 1).trans (runSteps_succ hsecond 0), hup, huraw, ?_, hucode, hubuf, rfl⟩
  exact congrArg (· - 1) hucnt

end Sys2Proof.Machine

namespace Sys2Proof.Proofs

open Sys2Proof.Machine

/-- Settles O46. -/
theorem sameCycleInputs : Obligations.SameCycleInputs := by
  unfold Obligations.SameCycleInputs
  refine ⟨fun b s hp hc hmore hmax hb hin => ?byteThenTick, fun c off v rest s hhost hoff hin => ?setWins⟩
  case byteThenTick =>
    exact runSteps_byte_tick hp hmore hmax hb hin
  case setWins =>
    have hreg : Reg.ofOffset off = .intstat := Reg.ofOffset_of_word hoff
    have hcycle := cycleInputs_of_intstat hhost hreg s
    have hes : ∀ a, Input.host a ∉ cycleEvents c := fun a => host_notMem_cycleEvents a c
    rw [hcycle, List.append_assoc] at hin
    obtain ⟨before, hbefore, hleft, hfewer, -⟩ := runSteps_events hes hin
    obtain ⟨fresh, hfresh, -, hsame, hsame'⟩ := runSteps_events (s := { s with intstat := 0 }) hes hin
    have hfl := flagsSetBy_eq (hsame _ (.of_same _ _ _)) (hsame' _ (.of_same _ _ _))
    have hle := (hfewer _ (.of_none s)).flagsLe
    refine ⟨(cycleEvents c).length, before, fresh, _, by rw [hcycle]; simp, hbefore, hfresh,
      (runSteps_add hbefore 1).trans (runSteps_succ (step_intstat hleft hreg) 0), rfl, fun k hk => ?_⟩
    rw [← hfl]
    exact getLsbD_writeIntstat_fresh (flagsSetBy (cycleEvents c) s) v { before with inputs := rest } hk (hle k)

end Sys2Proof.Proofs
end
